-- ==== Sys2Proof/Word.lean ====
section
/-! DEFINITION. The vectors that carry the core's bit sequences (00_scope.md R6, R7). A bit sequence of length `n` is an
`n`-bit vector, its first element the most significant bit. -/

namespace Sys2Proof

/-- A command word, 32 bits (30_encoding.md R30). -/
abbrev Word := BitVec 32

/-- A plaintext or ciphertext block, 8 bits (00_scope.md R5, BLOCK_BITS). -/
abbrev Block := BitVec 8

/-- A round subkey, 8 bits (00_scope.md R5, SUBKEY_BITS). -/
abbrev Subkey := BitVec 8

/-- The master key, 10 bits (00_scope.md R5, KEY_BITS). -/
abbrev MasterKey := BitVec 10

/-- Half of a permuted key, 5 bits (00_scope.md R5, KEYHALF_BITS). -/
abbrev KeyHalf := BitVec 5

/-- Half of a block, 4 bits (00_scope.md R5, HALF_BITS). -/
abbrev Half := BitVec 4

/-- The sequence of length 2 that an S-box value becomes (00_scope.md R6; 42_feistel_round.md R68). -/
abbrev Pair := BitVec 2

/-- The error mask ERR[4:0] of the status register (10_state.md R13). -/
abbrev ErrMask := BitVec 5

end Sys2Proof
end

