-- ==== Sys2Proof/Config.lean ====
section
/-! DEFINITION. What one core fixes and no command changes: the record TABLES of the eight constant tables (00_scope.md R5,
10_state.md R17) and the open latency (70_reset_and_hazards.md R109). The contents of the hardware's own tables are
Machine/Tables.lean's. -/

namespace Sys2Proof

/-- A permutation table of `L` entries for an input of `n` bits: 1-based positions, each from 1 to `n`
(40_permutation_engine.md R40, R41). A table that is not well formed is not a value of this type. -/
structure PermTable (n L : Nat) where
  /-- The positions, entry 0 first, as the spec writes the table. -/
  entries : Vector Nat L
  /-- R41: every entry is an integer from 1 to `n`. -/
  inRange : ∀ i : Fin L, 1 ≤ entries[i] ∧ entries[i] ≤ n
  deriving DecidableEq, Repr

/-- An S-box: 4 rows of 4 cells, every cell 0, 1, 2 or 3 (42_feistel_round.md R65). -/
abbrev SBox := Vector (Vector (Fin 4) 4) 4

/-- The configuration record TABLES (00_scope.md R5; 10_state.md R17), well formed by its types
(40_permutation_engine.md R41, R49; 42_feistel_round.md R65). -/
structure Tables where
  p10 : PermTable 10 10
  p8 : PermTable 10 8
  ip : PermTable 8 8
  ipinv : PermTable 8 8
  ep : PermTable 4 8
  p4 : PermTable 4 4
  s0 : SBox
  s1 : SBox
  deriving DecidableEq, Repr

/-- A TABLES record as it is handed to whoever builds a core, before any check (60_exceptions.md R94). -/
structure RawTables where
  p10 : List Nat
  p8 : List Nat
  ip : List Nat
  ipinv : List Nat
  ep : List Nat
  p4 : List Nat
  s0 : List (List Nat)
  s1 : List (List Nat)
  deriving DecidableEq, Repr

/-- The refusal of a malformed record, the model's form of the document's InvalidTableError (40_permutation_engine.md R41;
60_exceptions.md R94). It is raised by `Machine.buildTables` only, before there is a machine. -/
inductive TableError where
  /-- The table of that name has a wrong shape or an entry out of range. -/
  | invalidTable (name : String)
  deriving DecidableEq, Repr

/-- What a command word asks for, as far as time may depend on it (70_reset_and_hazards.md R109). -/
inductive CommandKind where
  | derive
  | enc
  | dec
  /-- The word selects no row of the opcode table (30_encoding.md R34). -/
  | illegal
  deriving DecidableEq, Repr

/-- The open parameter LATENCY of an operation, per fault (`true`) or no fault, less one, so that the latency is positive
(00_scope.md R5; 92_eei_decisions.md D16). A free value: nothing constrains it (assumption log 8). -/
opaque Config.latencyLessOne : CommandKind → Bool → Nat

end Sys2Proof
end

