-- ==== Sys2Proof/Syntax.lean ====
section
/-! DEFINITION. The commands, one constructor a row of spec/opcode_table.json (30_encoding.md R31). -/

namespace Sys2Proof

/-- A legal command and its operands (30_encoding.md R32, R33). `klen` and `blen` are the declared lengths KLEN and BLEN,
unsigned numbers that are compared and nothing else (assumption log 9); `key` and `blk` are the fields KEY and BLK. -/
inductive Instr where
  /-- DERIVE, the document's derive_subkeys (41_key_schedule.md R56). -/
  | derive (klen : Nat) (key : MasterKey)
  /-- ENC, the document's encrypt_block (43_cipher_driver.md R79). -/
  | enc (klen blen : Nat) (key : MasterKey) (blk : Block)
  /-- DEC, the document's decrypt_block (43_cipher_driver.md R80). -/
  | dec (klen blen : Nat) (key : MasterKey) (blk : Block)
  deriving DecidableEq, Repr

end Sys2Proof
end

