-- ==== Sys2Proof/WellFormed.lean ====
section
/-! DEFINITION. Which instructions a command word can carry. -/

namespace Sys2Proof

/-- A length that a 4-bit length field can declare: "A length above 15 cannot be declared" (30_encoding.md R32). -/
def lengthDeclarable (n : Nat) : Bool := n ≤ 15

/-- Every declared length of the instruction fits its field. The other operands fit by their types. -/
def Instr.wellFormed : Instr → Bool
  | .derive klen _ => lengthDeclarable klen
  | .enc klen blen _ _ => lengthDeclarable klen && lengthDeclarable blen
  | .dec klen blen _ _ => lengthDeclarable klen && lengthDeclarable blen

end Sys2Proof
end

