-- ==== Sys2Proof/Decode.lean ====
section
/-! DEFINITION. Command words to instructions and back (30_encoding.md R30 to R36). A command word is one 32-bit number taken
whole, so there is no byte order to decide (20_memory.md R23). -/

namespace Sys2Proof

/-- Why a word is illegal: the cases (a) to (d) of 30_encoding.md R34. All have one effect (60_exceptions.md R95), so which
of several is named first shows nowhere in the machine (assumption log 13). -/
inductive DecodeError where
  /-- (a) OP is 0. -/
  | opReserved
  /-- (b) Z1 is not 0. -/
  | z1NotZero
  /-- (c) Z2 is not 0. -/
  | z2NotZero
  /-- (d) A DERIVE word whose BLEN is not 0. -/
  | deriveBlenNotZero
  /-- (d) A DERIVE word whose BLK is not 0. -/
  | deriveBlkNotZero
  deriving DecidableEq, Repr

/-- OP, bits 31:30 (30_encoding.md R30). -/
def opField (w : Word) : BitVec 2 := w.extractLsb' 30 2

/-- Z1, bits 29:28, reserved. -/
def z1Field (w : Word) : BitVec 2 := w.extractLsb' 28 2

/-- KLEN, bits 27:24. -/
def klenField (w : Word) : BitVec 4 := w.extractLsb' 24 4

/-- BLEN, bits 23:20. -/
def blenField (w : Word) : BitVec 4 := w.extractLsb' 20 4

/-- Z2, bits 19:18, reserved. -/
def z2Field (w : Word) : BitVec 2 := w.extractLsb' 18 2

/-- KEY, bits 17:8. -/
def keyField (w : Word) : MasterKey := w.extractLsb' 8 10

/-- BLK, bits 7:0. -/
def blkField (w : Word) : Block := w.extractLsb' 0 8

/-- The decoder, total on every word (30_encoding.md R34, R35). -/
def decode (w : Word) : Except DecodeError Instr :=
  if opField w = 0 then .error .opReserved
  else if z1Field w ≠ 0 then .error .z1NotZero
  else if z2Field w ≠ 0 then .error .z2NotZero
  else if opField w = 1 then
    if blenField w ≠ 0 then .error .deriveBlenNotZero
    else if blkField w ≠ 0 then .error .deriveBlkNotZero
    else .ok (.derive (klenField w).toNat (keyField w))
  else if opField w = 2 then
    .ok (.enc (klenField w).toNat (blenField w).toNat (keyField w) (blkField w))
  else
    .ok (.dec (klenField w).toNat (blenField w).toNat (keyField w) (blkField w))

/-- The seven fields of CMD32 laid side by side, Z1 and Z2 zero (30_encoding.md R30). A length that no field can declare is
cut to 4 bits; `Instr.wellFormed` rules it out. -/
def packWord (op : BitVec 2) (klen blen : Nat) (key : MasterKey) (blk : Block) : Word :=
  op ++ 0#2 ++ BitVec.ofNat 4 klen ++ BitVec.ofNat 4 blen ++ 0#2 ++ key ++ blk

/-- The word of an instruction (30_encoding.md R31). -/
def encode : Instr → Word
  | .derive klen key => packWord 1 klen 0 key 0
  | .enc klen blen key blk => packWord 2 klen blen key blk
  | .dec klen blen key blk => packWord 3 klen blen key blk

/-- The command word whose low `nbits` bits are those of `w` and whose other bits are 0. -/
def tableWord (nbits w : Nat) : Word := BitVec.ofNat 32 (w % 2 ^ nbits)

/-- What the decoder reads from a word numbered as spec/opcode_table.json numbers its bits. Every command is one 32-bit word
(30_encoding.md R30, R36), so a longer one is no command. -/
def decodeTableWord (nbits w : Nat) : Option Instr :=
  if nbits ≤ 32 then (decode (tableWord nbits w)).toOption else none

end Sys2Proof
end

