-- ==== Sys2Proof/Machine/State.lean ====
section
/-! DEFINITION. The state of the core, the reasons a step could stop, and the state after reset (10_state.md). -/

namespace Sys2Proof.Machine

/-- What the host can do to the core: a run is "a list of events, each a command word or a reset"
(70_reset_and_hazards.md R105, R110). -/
inductive Event where
  /-- The host issues a command word (20_memory.md R21). -/
  | command (w : Word)
  /-- The host applies reset (70_reset_and_hazards.md R105). -/
  | reset
  deriving DecidableEq, Repr

/-- The four registers of 10_state.md R10 and, the model's own, what the host has still to give. -/
structure State where
  /-- K1, the first subkey of the last successful command, else 0 (10_state.md R11). -/
  k1 : Subkey
  /-- K2, the second subkey of the last successful command, else 0 (10_state.md R11). -/
  k2 : Subkey
  /-- R, the result block of the last successful ENC or DEC, else 0 (10_state.md R12). -/
  r : Block
  /-- ST, the status register: RV, KV, a reserved bit, ERR[4:0] (10_state.md R13). -/
  st : BitVec 8
  /-- The events the host has still to give, the next one first: the command port and the rest of the run. No register of the
  spec; DESIGN CHOICE (assumption log 1). -/
  pending : List Event
  deriving DecidableEq, Repr

/-- Reasons for the machine to stop with a fault. There is none: a fault of the spec aborts the command and leaves a next
state with the error in ST (60_exceptions.md R97, R98), every word has an outcome (30_encoding.md R34), and every command
completes (70_reset_and_hazards.md R109). DEDUCED, safe (assumption log 10). -/
inductive Fault where
  deriving DecidableEq, Repr

/-- Reasons for an instruction to have no meaning in the model. -/
inductive Refusal where
  /-- Raised by an arm of `exec` for an instruction that has no meaning yet; no arm raises it now. Safe. -/
  | notModelled (mnemonic : String)
  deriving DecidableEq, Repr

/-- The machine right after reset (10_state.md R18): the four registers 0x00. No event is pending (assumption logs 1, 3). -/
def State.reset : State :=
  { k1 := 0x00, k2 := 0x00, r := 0x00, st := 0x00, pending := [] }

end Sys2Proof.Machine
end

