-- ==== Sys2Proof/Machine/Flags.lean ====
section
/-! DEFINITION. The status register ST: its fields and every value written to it (10_state.md R13; 60_exceptions.md R90). -/

namespace Sys2Proof.Machine

/-- EKEYLEN, the document's InvalidKeyLengthError (60_exceptions.md R90, R91). -/
def eKeyLen : ErrMask := 0b00001

/-- EBLKLEN, the document's InvalidBlockLengthError (60_exceptions.md R90, R92). -/
def eBlkLen : ErrMask := 0b00010

/-- EBITVAL, the document's InvalidBitValueError; no command sets it (60_exceptions.md R93). -/
def eBitVal : ErrMask := 0b00100

/-- ETABLE, the document's InvalidTableError; no command sets it (60_exceptions.md R94). -/
def eTable : ErrMask := 0b01000

/-- EILLEGAL, raised by every illegal word (60_exceptions.md R95). -/
def eIllegal : ErrMask := 0b10000

/-- ST from its fields: RV bit 7, KV bit 6, bit 5 hardwired to 0, ERR bits 4:0 (10_state.md R13). -/
def statusOf (rv kv : Bool) (err : ErrMask) : BitVec 8 :=
  BitVec.ofBool rv ++ BitVec.ofBool kv ++ 0#1 ++ err

/-- ST.RV: R holds the result of the last command. -/
def State.rv (s : State) : Bool := s.st.getLsbD 7

/-- ST.KV: K1 and K2 hold the subkeys derived by the last command. -/
def State.kv (s : State) : Bool := s.st.getLsbD 6

/-- ST.ERR: the error mask of the last command. -/
def State.err (s : State) : ErrMask := s.st.extractLsb' 0 5

/-- The key length check: EKEYLEN when KLEN is not 10 (60_exceptions.md R91). -/
def keyLenErr (klen : Nat) : ErrMask := if klen ≠ 10 then eKeyLen else 0

/-- The block length check: EBLKLEN when BLEN is not 8 (60_exceptions.md R92). -/
def blkLenErr (blen : Nat) : ErrMask := if blen ≠ 8 then eBlkLen else 0

end Sys2Proof.Machine
end

