-- ==== Sys2Proof/Machine/Operands.lean ====
section
/-! DEFINITION. Operands: a bit sequence as a vector (00_scope.md R6 to R8) and the halves of keys and blocks. -/

namespace Sys2Proof.Machine

/-- `el(v, n, i)`: element `i`, 0-based, of a vector read as a sequence; it is bit `v[n-1-i]` (00_scope.md R7, R8). -/
def el {n : Nat} (v : BitVec n) (i : Nat) : Bool := v.getMsbD i

/-- The vector whose element `i` is `f i`. -/
def ofElements {n : Nat} (f : Fin n → Bool) : BitVec n := BitVec.ofFnBE f

/-- The elements of a vector, first element first (20_memory.md R23). -/
def elements {n : Nat} (v : BitVec n) : List Bool := List.ofFn fun i : Fin n => el v i

/-- The vector of the first `n` elements of a sequence. -/
def ofSequence (n : Nat) (bits : List Bool) : BitVec n := ofElements fun i => bits.getD i false

/-- The first 5 elements of a permuted key, `p[9:5]` (41_key_schedule.md R52). -/
def keyLeft (p : MasterKey) : KeyHalf := p.extractLsb' 5 5

/-- The last 5 elements of a permuted key, `p[4:0]` (41_key_schedule.md R52). -/
def keyRight (p : MasterKey) : KeyHalf := p.extractLsb' 0 5

/-- The left half of a block, or the group that goes to S0: `b[7:4]` (42_feistel_round.md R61, R64). -/
def leftHalf (b : Block) : Half := b.extractLsb' 4 4

/-- The right half of a block, or the group that goes to S1: `b[3:0]` (42_feistel_round.md R61, R64). -/
def rightHalf (b : Block) : Half := b.extractLsb' 0 4

end Sys2Proof.Machine
end

