-- ==== Sys2Proof/Machine/Ops.lean ====
section
/-! DEFINITION. The named operations over the registers and the two ports: writing the four registers, taking a fault, the
reset event, reading the outputs, and taking the host's next event. -/

namespace Sys2Proof.Machine

/-- The one write of the registers: a command, or reset, writes all four (10_state.md R10; 20_memory.md R21). -/
def State.writeAll (k1 k2 : Subkey) (r : Block) (st : BitVec 8) (s : State) : State :=
  { s with k1 := k1, k2 := k2, r := r, st := st }

/-- Taking a fault with mask `m`, the spec's `raise Fault(m)`: K1, K2 and R become 0 and ST the mask, and nothing else
happens (60_exceptions.md R97). Nothing is saved and there is no handler, so no return operation stands beside it (R98). -/
def raiseFault (m : ErrMask) (s : State) : State := s.writeAll 0x00 0x00 0x00 (statusOf false false m)

/-- A command without fault that produces the subkey pair only (41_key_schedule.md R56). -/
def showSubkeys (keys : Subkey × Subkey) (s : State) : State :=
  s.writeAll keys.1 keys.2 0x00 (statusOf false true 0)

/-- A command without fault that produces the subkey pair and a block (43_cipher_driver.md R79, R80). -/
def showResult (keys : Subkey × Subkey) (result : Block) (s : State) : State :=
  s.writeAll keys.1 keys.2 result (statusOf true true 0)

/-- The reset event: the four registers to 0x00 and nothing else (10_state.md R18; 70_reset_and_hazards.md R105). -/
def resetRegisters (s : State) : State := s.writeAll 0x00 0x00 0x00 0x00

/-- An illegal word faults with EILLEGAL alone, whatever makes it illegal (30_encoding.md R34; 60_exceptions.md R95). -/
def execIllegal (_why : DecodeError) (s : State) : Host.Outcome State Fault Refusal :=
  .next (raiseFault eIllegal s)

/-- What the output port shows (20_memory.md R22). -/
structure OutputPort where
  k1 : Subkey
  k2 : Subkey
  r : Block
  st : BitVec 8
  deriving DecidableEq, Repr

/-- The host reads the outputs: a view of the state, which a read does not change (20_memory.md R22). -/
def State.outputs (s : State) : OutputPort := { k1 := s.k1, k2 := s.k2, r := s.r, st := s.st }

/-- The outputs as one 32-bit word: ST in bits 31:24, K1 in 23:16, K2 in 15:8, R in 7:0 (20_memory.md R22). -/
def State.outputWord (s : State) : Word := s.st ++ s.k1 ++ s.k2 ++ s.r

/-- The host gives one more event, to be taken after those it gave before (20_memory.md R25). -/
def State.offer (e : Event) (s : State) : State := { s with pending := s.pending ++ [e] }

/-- The host gives an event that is to be taken next. -/
def State.offerFirst (e : Event) (s : State) : State := { s with pending := e :: s.pending }

/-- The next event and the state that no longer holds it: events are taken one at a time, in the host's order
(20_memory.md R21, R25). -/
def State.takeEvent (s : State) : Option (Event × State) :=
  match s.pending with
  | [] => none
  | e :: rest => some (e, { s with pending := rest })

end Sys2Proof.Machine
end

