-- ==== Sys2Proof/Machine/Permutation.lean ====
section
/-! DEFINITION. The permutation engine: PERMUTE with its look-up-table form, and ROTL (40_permutation_engine.md). -/

namespace Sys2Proof.Machine

/-- Entry `i` of a table as a 0-based index into the input: `T[i] - 1`, always in range (40_permutation_engine.md R40,
R41). -/
def tableIndex {n L : Nat} (T : PermTable n L) (i : Fin L) : Fin n :=
  ⟨T.entries[i] - 1, by have h := T.inRange i; omega⟩

/-- PERMUTE: element `i` of the result is element `T[i] - 1` of the input (40_permutation_engine.md R40). -/
def permute {n L : Nat} (T : PermTable n L) (x : BitVec n) : BitVec L :=
  ofElements fun i => el x (tableIndex T i)

/-- The LUT form of a table: `LUT_T[j] = n - T[L-1-j]`, the input bit that drives output bit `j`
(40_permutation_engine.md R40). -/
def lut {n L : Nat} (T : PermTable n L) (j : Fin L) : Fin n :=
  ⟨n - T.entries[j.rev], by have h := T.inRange j.rev; omega⟩

/-- ROTL: a rotation to the left by `k mod n` positions; element `i` of the result is element `(i + k) mod n`
(40_permutation_engine.md R42). A sequence has at least one element: length 0 has no meaning (93 U3), and the type admits
none. -/
def rotl {n : Nat} (x : BitVec (n + 1)) (k : Nat) : BitVec (n + 1) :=
  ofElements fun i => el x ((i.val + k % (n + 1)) % (n + 1))

end Sys2Proof.Machine
end

