-- ==== Sys2Proof/Machine/Tables.lean ====
section
/-! DEFINITION. The contents of the hardware's tables (40_permutation_engine.md R43 to R48; 42_feistel_round.md R66, R67), which
the spec supplies from general knowledge (UNVERIFIED, unsafe, assumption log 4), their shapes (R49), and the check made when
a TABLES record is built (R41; 60_exceptions.md R94). -/

namespace Sys2Proof.Machine

/-- P10 (40_permutation_engine.md R43). -/
def tableP10 : PermTable 10 10 := ⟨#v[3, 5, 2, 7, 4, 10, 1, 9, 8, 6], by decide⟩

/-- P8 (40_permutation_engine.md R44). -/
def tableP8 : PermTable 10 8 := ⟨#v[6, 3, 7, 4, 8, 5, 10, 9], by decide⟩

/-- IP (40_permutation_engine.md R45). -/
def tableIP : PermTable 8 8 := ⟨#v[2, 6, 3, 1, 4, 8, 5, 7], by decide⟩

/-- IPINV, the document's IP⁻¹ (40_permutation_engine.md R46). -/
def tableIPINV : PermTable 8 8 := ⟨#v[4, 1, 3, 5, 7, 2, 8, 6], by decide⟩

/-- EP (40_permutation_engine.md R47). -/
def tableEP : PermTable 4 8 := ⟨#v[4, 1, 2, 3, 2, 3, 4, 1], by decide⟩

/-- P4 (40_permutation_engine.md R48). -/
def tableP4 : PermTable 4 4 := ⟨#v[2, 4, 3, 1], by decide⟩

/-- S0 by rows (42_feistel_round.md R66). -/
def tableS0 : SBox := #v[#v[1, 0, 3, 2], #v[3, 2, 1, 0], #v[0, 2, 1, 3], #v[3, 1, 3, 2]]

/-- S1 by rows (42_feistel_round.md R67). -/
def tableS1 : SBox := #v[#v[0, 1, 2, 3], #v[2, 0, 1, 3], #v[3, 0, 1, 0], #v[2, 1, 0, 3]]

/-- The tables of this hardware (92_eei_decisions.md D17). -/
def hardwareTables : Tables :=
  { p10 := tableP10, p8 := tableP8, ip := tableIP, ipinv := tableIPINV, ep := tableEP, p4 := tableP4
    s0 := tableS0, s1 := tableS1 }

/-- How often a table reads input position `p`. -/
def usesOf {n L : Nat} (T : PermTable n L) (p : Nat) : Nat := T.entries.toList.count p

/-- A table that reads every input position exactly `m` times (the column "each input position used" of
40_permutation_engine.md R49). -/
def readsEach {n L : Nat} (T : PermTable n L) (m : Nat) : Bool :=
  (List.range n).all fun p => usesOf T (p + 1) == m

/-- IP and IPINV are inverse to each other: a position read through both tables comes back to itself
(40_permutation_engine.md R46, R49). The one property of the tables that the cipher relies on (43_cipher_driver.md R78). -/
abbrev TablesInverse (t : Tables) : Prop :=
  (∀ i, tableIndex t.ip (tableIndex t.ipinv i) = i) ∧ (∀ i, tableIndex t.ipinv (tableIndex t.ip i) = i)

/-- The shapes of 40_permutation_engine.md R49: P10, IP, IPINV and P4 bijections, P8 a selection without repeats that leaves
out positions 1 and 2, EP reading each position twice, and IPINV undoing IP. -/
abbrev TablesShaped (t : Tables) : Prop :=
  readsEach t.p10 1 ∧ readsEach t.ip 1 ∧ readsEach t.ipinv 1 ∧ readsEach t.p4 1 ∧ readsEach t.ep 2 ∧
  (List.range 10).all (fun p => usesOf t.p8 (p + 1) == if p < 2 then 0 else 1) ∧ TablesInverse t

/-- The well-formedness of one permutation table: `L` entries, each an integer from 1 to `n`; else it is refused
(40_permutation_engine.md R41). -/
def buildPerm (n L : Nat) (name : String) (positions : List Nat) : Except TableError (PermTable n L) :=
  if h : positions.length = L then
    let v : Vector Nat L := ⟨positions.toArray, by simpa using h⟩
    if hr : ∀ i : Fin L, 1 ≤ v[i] ∧ v[i] ≤ n then .ok ⟨v, hr⟩ else .error (.invalidTable name)
  else .error (.invalidTable name)

/-- The well-formedness of one S-box: 4 rows of 4 cells, each 0, 1, 2 or 3; else it is refused (42_feistel_round.md R65). -/
def buildSBox (name : String) (rows : List (List Nat)) : Except TableError SBox :=
  if h : rows.length = 4 ∧ ∀ row ∈ rows, row.length = 4 ∧ ∀ v ∈ row, v < 4 then
    .ok (Vector.ofFn fun i => Vector.ofFn fun j =>
      have hi : i < rows.length := by omega
      have hrow := h.2 rows[i] (List.getElem_mem hi)
      have hj : j < rows[i].length := by omega
      ⟨rows[i][j], hrow.2 _ (List.getElem_mem hj)⟩)
  else .error (.invalidTable name)

/-- Building a core's TABLES record: the check is made once, here, and a record that fails it is refused
(60_exceptions.md R94; 92_eei_decisions.md D13). The table named in the refusal is the first malformed one
(assumption log 14). -/
def buildTables (raw : RawTables) : Except TableError Tables :=
  (buildPerm 10 10 "P10" raw.p10).bind fun p10 =>
  (buildPerm 10 8 "P8" raw.p8).bind fun p8 =>
  (buildPerm 8 8 "IP" raw.ip).bind fun ip =>
  (buildPerm 8 8 "IPINV" raw.ipinv).bind fun ipinv =>
  (buildPerm 4 8 "EP" raw.ep).bind fun ep =>
  (buildPerm 4 4 "P4" raw.p4).bind fun p4 =>
  (buildSBox "S0" raw.s0).bind fun s0 =>
  (buildSBox "S1" raw.s1).bind fun s1 =>
  .ok { p10 := p10, p8 := p8, ip := ip, ipinv := ipinv, ep := ep, p4 := p4, s0 := s0, s1 := s1 }

/-- The record the hardware's tables are built from, as 92_eei_decisions.md D17 lists it. -/
def hardwareRawTables : RawTables :=
  { p10 := [3, 5, 2, 7, 4, 10, 1, 9, 8, 6]
    p8 := [6, 3, 7, 4, 8, 5, 10, 9]
    ip := [2, 6, 3, 1, 4, 8, 5, 7]
    ipinv := [4, 1, 3, 5, 7, 2, 8, 6]
    ep := [4, 1, 2, 3, 2, 3, 4, 1]
    p4 := [2, 4, 3, 1]
    s0 := [[1, 0, 3, 2], [3, 2, 1, 0], [0, 2, 1, 3], [3, 1, 3, 2]]
    s1 := [[0, 1, 2, 3], [2, 0, 1, 3], [3, 0, 1, 0], [2, 1, 0, 3]] }

end Sys2Proof.Machine
end

