-- ==== Sys2Proof/Machine/KeySchedule.lean ====
section
/-! DEFINITION. The key schedule KEYSCHED and the DERIVE command (41_key_schedule.md). -/

namespace Sys2Proof.Machine

/-- KEYSCHED: P10, the halves rotated by one, P8 for K1; the same halves rotated by two more, P8 for K2
(41_key_schedule.md R50 to R54). A pure function of the key (R55). -/
def keySchedule (t : Tables) (k : MasterKey) : Subkey × Subkey :=
  let p := permute t.p10 k
  let l1 := rotl (keyLeft p) 1
  let r1 := rotl (keyRight p) 1
  let l3 := rotl l1 2
  let r3 := rotl r1 2
  (permute t.p8 (l1 ++ r1), permute t.p8 (l3 ++ r3))

/-- DERIVE on a core with tables `t`: the length check first, then the subkeys (41_key_schedule.md R56; 60_exceptions.md
R96). -/
def deriveCommand (t : Tables) (klen : Nat) (key : MasterKey) (s : State) : State :=
  let m := keyLenErr klen
  if m ≠ 0 then raiseFault m s else showSubkeys (keySchedule t key) s

/-- DERIVE (41_key_schedule.md R56). -/
def execDerive (klen : Nat) (key : MasterKey) (s : State) : Host.Outcome State Fault Refusal :=
  .next (deriveCommand hardwareTables klen key s)

end Sys2Proof.Machine
end

