-- ==== Sys2Proof/Machine/Feistel.lean ====
section
/-! DEFINITION. The Feistel round: SBOX, F and ROUND (42_feistel_round.md). -/

namespace Sys2Proof.Machine

/-- The 2-bit number `2·a + b`, as a row or a column of an S-box (42_feistel_round.md R65, R72). -/
def selector (a b : Bool) : Fin 4 :=
  ⟨2 * a.toNat + b.toNat, by have := a.toNat_le; have := b.toNat_le; omega⟩

/-- The row: the outer elements of the group, the first as the high bit (42_feistel_round.md R65; 90_conflicts.md C3). -/
def sboxRow (g : Half) : Fin 4 := selector (el g 0) (el g 3)

/-- The column: the inner elements of the group, element 1 as the high bit (42_feistel_round.md R65). -/
def sboxCol (g : Half) : Fin 4 := selector (el g 1) (el g 2)

/-- The cell an S-box gives for a group (42_feistel_round.md R65). -/
def sboxCell (S : SBox) (g : Half) : Fin 4 := S[sboxRow g][sboxCol g]

/-- SBOX: the cell as a pair, bit_high = value div 2 first, bit_low = value mod 2 second (42_feistel_round.md R65, R68). -/
def sbox (S : SBox) (g : Half) : Pair :=
  ofElements fun i => if i = 0 then (sboxCell S g).val / 2 == 1 else (sboxCell S g).val % 2 == 1

/-- F: steps 2 to 6 of the round (42_feistel_round.md R60, R62 to R69). -/
def fFunction (t : Tables) (rt : Half) (sk : Subkey) : Half :=
  let e := permute t.ep rt
  let x := e ^^^ sk
  let s0 := sbox t.s0 (leftHalf x)
  let s1 := sbox t.s1 (rightHalf x)
  permute t.p4 (s0 ++ s1)

/-- ROUND: F of the right half into the left half; the right half stays, and nothing is swapped (42_feistel_round.md R60,
R61, R70). -/
def feistelRound (t : Tables) (b : Block) (sk : Subkey) : Block :=
  let l := leftHalf b
  let rt := rightHalf b
  let f := fFunction t rt sk
  (l ^^^ f) ++ rt

end Sys2Proof.Machine
end

