-- ==== Sys2Proof/Machine/Driver.lean ====
section
/-! DEFINITION. The block cipher driver and the ENC and DEC commands (43_cipher_driver.md). -/

namespace Sys2Proof.Machine

/-- SWAP: the halves exchanged (43_cipher_driver.md R75). -/
def swapHalves (b : Block) : Block := rightHalf b ++ leftHalf b

/-- Steps 2 to 6 of the driver, with the subkeys in their order of use: IP, a round, SWAP, a round, IPINV; no swap after the
second round (43_cipher_driver.md R76, R83). -/
def twoRounds (t : Tables) (first second : Subkey) (x : Block) : Block :=
  let a := permute t.ip x
  let b := feistelRound t a first
  let c := swapHalves b
  let d := feistelRound t c second
  permute t.ipinv d

/-- ENCRYPT: the subkeys of the key, K1 first (43_cipher_driver.md R76). -/
def encrypt (t : Tables) (p : Block) (k : MasterKey) : Block :=
  let keys := keySchedule t k
  twoRounds t keys.1 keys.2 p

/-- DECRYPT: the same with the subkeys in the other order, K2 first (43_cipher_driver.md R77). -/
def decrypt (t : Tables) (c : Block) (k : MasterKey) : Block :=
  let keys := keySchedule t k
  twoRounds t keys.2 keys.1 c

/-- What ENC and DEC share: both length checks first, each on its own, then the subkeys and the block that `cipher` gives
(43_cipher_driver.md R79, R80; 60_exceptions.md R96). K1 and K2 show the pair in the order of the schedule (10_state.md
R11). -/
def blockCommand (t : Tables) (cipher : Tables → Block → MasterKey → Block) (klen blen : Nat) (key : MasterKey)
    (blk : Block) (s : State) : State :=
  let m := keyLenErr klen ||| blkLenErr blen
  if m ≠ 0 then raiseFault m s else showResult (keySchedule t key) (cipher t blk key) s

/-- ENC (43_cipher_driver.md R79). -/
def execEnc (klen blen : Nat) (key : MasterKey) (blk : Block) (s : State) : Host.Outcome State Fault Refusal :=
  .next (blockCommand hardwareTables encrypt klen blen key blk s)

/-- DEC (43_cipher_driver.md R80). -/
def execDec (klen blen : Nat) (key : MasterKey) (blk : Block) (s : State) : Host.Outcome State Fault Refusal :=
  .next (blockCommand hardwareTables decrypt klen blen key blk s)

end Sys2Proof.Machine
end

