-- ==== Sys2Proof/Machine/Dispatch.lean ====
section
/-! DEFINITION. One arm a command (30_encoding.md R31, R35). -/

namespace Sys2Proof.Machine

/-- The execution of a decoded command (30_encoding.md R35). -/
def exec (i : Instr) (s : State) : Host.Outcome State Fault Refusal :=
  match i with
  | .derive klen key => Sys2Proof.Machine.execDerive klen key s
  | .enc klen blen key blk => Sys2Proof.Machine.execEnc klen blen key blk s
  | .dec klen blen key blk => Sys2Proof.Machine.execDec klen blen key blk s

end Sys2Proof.Machine
end

