-- ==== Sys2Proof/Machine/Port.lean ====
section
/-! DEFINITION. What the core does with one event of the host (20_memory.md R21, R25; 30_encoding.md R35;
70_reset_and_hazards.md R105). -/

namespace Sys2Proof.Machine

/-- A command word: decoded, then executed; an illegal word faults (30_encoding.md R35). -/
def issueWord (w : Word) (s : State) : Host.Outcome State Fault Refusal :=
  match decode w with
  | .ok i => exec i s
  | .error why => execIllegal why s

/-- One event, each one atomic step (70_reset_and_hazards.md R105). -/
def runEvent (e : Event) (s : State) : Host.Outcome State Fault Refusal :=
  match e with
  | .command w => issueWord w s
  | .reset => .next (resetRegisters s)

/-- With no event to take the core waits and its outputs stand (20_memory.md R22; 60_exceptions.md R97; assumption log 2). -/
def idle (s : State) : Host.Outcome State Fault Refusal := .next s

end Sys2Proof.Machine
end

