-- ==== Sys2Proof/Machine/Step.lean ====
section
/-! DEFINITION. One step of the machine: the host's next event, taken and run to completion (00_scope.md R9). -/

namespace Sys2Proof.Machine

/-- One step: total and deterministic (00_scope.md R9). -/
def step (s : State) : Host.Outcome State Fault Refusal :=
  match s.takeEvent with
  | some (e, rest) => runEvent e rest
  | none => idle s

/-- `s` with the command word `w` at the command port, to be taken by the very next step (assumption log 3). -/
def State.withFetchWord (s : State) (nbits w : Nat) : State := s.offerFirst (.command (tableWord nbits w))

end Sys2Proof.Machine
end

