-- ==== Sys2Proof/Machine/Assembler.lean ====
section
/-! DEFINITION. The textual form of a command: the assembler and the disassembler (30_encoding.md R37), with the document's
InvalidBitValueError, which lives at this level only (60_exceptions.md R93). What R37 leaves open of spaces and digits is
assumption log 12. -/

namespace Sys2Proof.Machine

/-- Why the assembler emits no word. -/
inductive AsmError where
  /-- An operand holds a character other than 0 and 1: the document's InvalidBitValueError, EBITVAL (60_exceptions.md R93). -/
  | invalidBitValue
  /-- The text is none of the four line forms of 30_encoding.md R37. -/
  | notALine
  deriving DecidableEq, Repr

/-- The four line forms, operands as they are written: bit strings of any length, first element first (30_encoding.md
R37). -/
inductive AsmLine where
  | derive (key : List Char)
  | enc (block key : List Char)
  | dec (block key : List Char)
  | word (w : Word)
  deriving DecidableEq, Repr

/-- The elements of an operand string; a character other than 0 or 1 is refused (60_exceptions.md R93). -/
def bitsOfText : List Char → Except AsmError (List Bool)
  | [] => .ok []
  | c :: cs =>
    if c = '0' then (bitsOfText cs).map (false :: ·)
    else if c = '1' then (bitsOfText cs).map (true :: ·)
    else .error .invalidBitValue

/-- The length field of an operand: min(length, 15) (30_encoding.md R32, R37). -/
def declaredLength (bits : List Bool) : Nat := min bits.length 15

/-- The data field of an operand: the string's value when its length is the proper one, else 0 (30_encoding.md R37). -/
def dataField (n : Nat) (bits : List Bool) : BitVec n := if bits.length = n then ofSequence n bits else 0

/-- The assembler on a line (30_encoding.md R37). -/
def assemble : AsmLine → Except AsmError Word
  | .derive key =>
    (bitsOfText key).map fun k => encode (.derive (declaredLength k) (dataField 10 k))
  | .enc block key =>
    (bitsOfText block).bind fun b => (bitsOfText key).map fun k =>
      encode (.enc (declaredLength k) (declaredLength b) (dataField 10 k) (dataField 8 b))
  | .dec block key =>
    (bitsOfText block).bind fun b => (bitsOfText key).map fun k =>
      encode (.dec (declaredLength k) (declaredLength b) (dataField 10 k) (dataField 8 b))
  | .word w => .ok w

/-- A vector as a bit string of full width, leading zeros kept (20_memory.md R23). -/
def textOfBits {n : Nat} (v : BitVec n) : List Char := (elements v).map fun b => if b then '1' else '0'

/-- The disassembler: a legal word with proper lengths in its mnemonic form, every other word as .word (30_encoding.md
R37). -/
def disassemble (w : Word) : AsmLine :=
  match decode w with
  | .ok (.derive klen key) => if klen = 10 then .derive (textOfBits key) else .word w
  | .ok (.enc klen blen key blk) =>
    if klen = 10 ∧ blen = 8 then .enc (textOfBits blk) (textOfBits key) else .word w
  | .ok (.dec klen blen key blk) =>
    if klen = 10 ∧ blen = 8 then .dec (textOfBits blk) (textOfBits key) else .word w
  | .error _ => .word w

/-- A space or a tab. -/
def isBlank (c : Char) : Bool := c == ' ' || c == '\t'

/-- The text without the blanks around it. -/
def trim (cs : List Char) : List Char := ((cs.dropWhile isBlank).reverse.dropWhile isBlank).reverse

/-- The text before the first comma and the text after it. -/
def splitComma : List Char → Option (List Char × List Char)
  | [] => none
  | c :: cs => if c = ',' then some ([], cs) else (splitComma cs).map fun p => (c :: p.1, p.2)

/-- The value of a hexadecimal digit, of either case. -/
def hexValue (c : Char) : Option (BitVec 4) :=
  if '0' ≤ c ∧ c ≤ '9' then some (BitVec.ofNat 4 (c.toNat - 48))
  else if 'A' ≤ c ∧ c ≤ 'F' then some (BitVec.ofNat 4 (c.toNat - 55))
  else if 'a' ≤ c ∧ c ≤ 'f' then some (BitVec.ofNat 4 (c.toNat - 87))
  else none

/-- A 32-bit hexadecimal number, 0x and eight digits. -/
def parseHex : List Char → Option Word
  | ['0', 'x', a, b, c, d, e, f, g, h] =>
    match hexValue a, hexValue b, hexValue c, hexValue d, hexValue e, hexValue f, hexValue g, hexValue h with
    | some a, some b, some c, some d, some e, some f, some g, some h => some (a ++ b ++ c ++ d ++ e ++ f ++ g ++ h)
    | _, _, _, _, _, _, _, _ => none
  | _ => none

/-- The text of one line read as one of the four line forms (30_encoding.md R37). -/
def parseLine (text : List Char) : Except AsmError AsmLine :=
  let line := trim text
  let mnemonic := line.takeWhile fun c => !isBlank c
  let operands := trim (line.dropWhile fun c => !isBlank c)
  if mnemonic = ['D', 'E', 'R', 'I', 'V', 'E'] then .ok (.derive operands)
  else if mnemonic = ['E', 'N', 'C'] then
    match splitComma operands with
    | some p => .ok (.enc (trim p.1) (trim p.2))
    | none => .error .notALine
  else if mnemonic = ['D', 'E', 'C'] then
    match splitComma operands with
    | some p => .ok (.dec (trim p.1) (trim p.2))
    | none => .error .notALine
  else if mnemonic = ['.', 'w', 'o', 'r', 'd'] then
    match parseHex operands with
    | some w => .ok (.word w)
    | none => .error .notALine
  else .error .notALine

/-- The assembler on text. -/
def assembleText (text : List Char) : Except AsmError Word := (parseLine text).bind assemble

/-- The hexadecimal digit of a value, in capitals. -/
def hexDigit (v : BitVec 4) : Char :=
  if v.toNat < 10 then Char.ofNat (48 + v.toNat) else Char.ofNat (55 + v.toNat)

/-- A word as 0x and eight hexadecimal digits. -/
def printHex (w : Word) : List Char :=
  ['0', 'x', hexDigit (w.extractLsb' 28 4), hexDigit (w.extractLsb' 24 4), hexDigit (w.extractLsb' 20 4),
    hexDigit (w.extractLsb' 16 4), hexDigit (w.extractLsb' 12 4), hexDigit (w.extractLsb' 8 4),
    hexDigit (w.extractLsb' 4 4), hexDigit (w.extractLsb' 0 4)]

/-- A line as text: one space after the mnemonic, a comma and a space between operands (30_encoding.md R37). -/
def printLine : AsmLine → List Char
  | .derive key => ['D', 'E', 'R', 'I', 'V', 'E', ' '] ++ key
  | .enc block key => ['E', 'N', 'C', ' '] ++ block ++ [',', ' '] ++ key
  | .dec block key => ['D', 'E', 'C', ' '] ++ block ++ [',', ' '] ++ key
  | .word w => ['.', 'w', 'o', 'r', 'd', ' '] ++ printHex w

/-- The disassembler's text (30_encoding.md R37). -/
def disassembleText (w : Word) : List Char := printLine (disassemble w)

end Sys2Proof.Machine
end

