-- ==== Sys2Proof/Machine/Reference.lean ====
section
/-! DEFINITION. A second, independent formulation of the rules, in sequence form: bit sequences as lists, first element first,
and numbers as Nat (95_test_vectors.md section 6, the reference evaluator). The machine does not use it; a statement compares the
two, as 95_test_vectors.md section 4 does. -/

namespace Sys2Proof.Machine

/-- `permute`: the elements at the positions that the table lists (40_permutation_engine.md R40). -/
def seqPermute (x : List Bool) (table : List Nat) : List Bool := table.map fun p => x.getD (p - 1) false

/-- `rotl`: the first `k mod n` elements go to the end (40_permutation_engine.md R42). -/
def seqRotl (x : List Bool) (k : Nat) : List Bool := x.drop (k % x.length) ++ x.take (k % x.length)

/-- `keysched` (41_key_schedule.md R50), with P10 and P8 written out (40_permutation_engine.md R43, R44). -/
def seqKeySchedule (k : List Bool) : List Bool × List Bool :=
  let p10 := [3, 5, 2, 7, 4, 10, 1, 9, 8, 6]
  let p8 := [6, 3, 7, 4, 8, 5, 10, 9]
  let p := seqPermute k p10
  let l1 := seqRotl (p.take 5) 1
  let r1 := seqRotl (p.drop 5) 1
  let l3 := seqRotl l1 2
  let r3 := seqRotl r1 2
  (seqPermute (l1 ++ r1) p8, seqPermute (l3 ++ r3) p8)

/-- `sbox`: the value of the cell as high and low bit (42_feistel_round.md R65, R68). -/
def seqSBox (g : List Bool) (S : List (List Nat)) : List Bool :=
  let b := fun i => (g.getD i false).toNat
  let v := (S.getD (2 * b 0 + b 3) []).getD (2 * b 1 + b 2) 0
  [v / 2 == 1, v % 2 == 1]

/-- `f` (42_feistel_round.md R60), with EP, P4, S0 and S1 written out (R66, R67; 40_permutation_engine.md R47, R48). -/
def seqF (rt sk : List Bool) : List Bool :=
  let s0 := [[1, 0, 3, 2], [3, 2, 1, 0], [0, 2, 1, 3], [3, 1, 3, 2]]
  let s1 := [[0, 1, 2, 3], [2, 0, 1, 3], [3, 0, 1, 0], [2, 1, 0, 3]]
  let x := List.zipWith xor (seqPermute rt [4, 1, 2, 3, 2, 3, 4, 1]) sk
  seqPermute (seqSBox (x.take 4) s0 ++ seqSBox (x.drop 4) s1) [2, 4, 3, 1]

/-- `round_` (42_feistel_round.md R60). -/
def seqRound (b sk : List Bool) : List Bool := List.zipWith xor (b.take 4) (seqF (b.drop 4) sk) ++ b.drop 4

/-- `swap` (43_cipher_driver.md R75). -/
def seqSwap (b : List Bool) : List Bool := b.drop 4 ++ b.take 4

/-- The driver with the subkeys in their order of use (43_cipher_driver.md R76, R77), with IP and IPINV written out
(40_permutation_engine.md R45, R46). -/
def seqCipher (first second b : List Bool) : List Bool :=
  let a := seqPermute b [2, 6, 3, 1, 4, 8, 5, 7]
  seqPermute (seqRound (seqSwap (seqRound a first)) second) [4, 1, 3, 5, 7, 2, 8, 6]

/-- `bits(v, n)`: the `n` low bits of a number, most significant first (00_scope.md R7). -/
def seqOfNat (n v : Nat) : List Bool := (List.range n).map fun i => v.testBit (n - 1 - i)

/-- `val`: a sequence read as a binary numeral (20_memory.md R23). -/
def seqToNat (s : List Bool) : Nat := s.foldl (fun acc b => 2 * acc + b.toNat) 0

/-- `exec_`: K1, K2, R and ST after the command word `w`, as numbers (30_encoding.md R35). -/
def seqExec (w : Nat) : Nat × Nat × Nat × Nat :=
  let op := w / 2 ^ 30 % 4
  let z1 := w / 2 ^ 28 % 4
  let klen := w / 2 ^ 24 % 16
  let blen := w / 2 ^ 20 % 16
  let z2 := w / 2 ^ 18 % 4
  let key := w / 2 ^ 8 % 1024
  let blk := w % 256
  if op = 0 ∨ z1 ≠ 0 ∨ z2 ≠ 0 ∨ (op = 1 ∧ (blen ≠ 0 ∨ blk ≠ 0)) then (0, 0, 0, 0x10)
  else
    let m := (if klen ≠ 10 then 1 else 0) + (if op ≠ 1 ∧ blen ≠ 8 then 2 else 0)
    if m ≠ 0 then (0, 0, 0, m)
    else
      let keys := seqKeySchedule (seqOfNat 10 key)
      let k1 := seqToNat keys.1
      let k2 := seqToNat keys.2
      if op = 1 then (k1, k2, 0, 0x40)
      else if op = 2 then (k1, k2, seqToNat (seqCipher keys.1 keys.2 (seqOfNat 8 blk)), 0xC0)
      else (k1, k2, seqToNat (seqCipher keys.2 keys.1 (seqOfNat 8 blk)), 0xC0)

end Sys2Proof.Machine
end

