-- ==== Sys2Proof/Machine/Timing.lean ====
section
/-! DEFINITION. What the spec says of time and of the amount of work (70_reset_and_hazards.md R109). The step carries no time:
these are functions of the command word beside it (assumption log 8). -/

namespace Sys2Proof.Machine

/-- A command faults when a declared length is wrong (60_exceptions.md R91, R92, R96). -/
def instrFaults : Instr → Bool
  | .derive klen _ => keyLenErr klen != 0
  | .enc klen blen _ _ => (keyLenErr klen ||| blkLenErr blen) != 0
  | .dec klen blen _ _ => (keyLenErr klen ||| blkLenErr blen) != 0

/-- The operation of an instruction. -/
def instrKind : Instr → CommandKind
  | .derive _ _ => .derive
  | .enc _ _ _ _ => .enc
  | .dec _ _ _ _ => .dec

/-- The operation a command word asks for. -/
def commandKind (w : Word) : CommandKind :=
  match decode w with
  | .ok i => instrKind i
  | .error _ => .illegal

/-- Whether a command word faults (30_encoding.md R34, R35). -/
def commandFaults (w : Word) : Bool :=
  match decode w with
  | .ok i => instrFaults i
  | .error _ => true

/-- LATENCY of a command word, in time units the spec leaves open: positive, and a function of the operation and of whether
the command faults, of nothing else (00_scope.md R5; 70_reset_and_hazards.md R109). -/
def commandTime (w : Word) : Nat := Config.latencyLessOne (commandKind w) (commandFaults w) + 1

/-- The work counts of 70_reset_and_hazards.md R109: applications of PERMUTE, of ROTL and of SBOX, exclusive ORs of 8 and of 4
bits, and applications of SWAP. -/
structure Work where
  permutes : Nat := 0
  rotls : Nat := 0
  sboxes : Nat := 0
  xors8 : Nat := 0
  xors4 : Nat := 0
  swaps : Nat := 0
  deriving DecidableEq, Repr

/-- The work of two parts together. -/
def Work.plus (a b : Work) : Work :=
  { permutes := a.permutes + b.permutes, rotls := a.rotls + b.rotls, sboxes := a.sboxes + b.sboxes
    xors8 := a.xors8 + b.xors8, xors4 := a.xors4 + b.xors4, swaps := a.swaps + b.swaps }

/-- A value and the work that it took. -/
structure Tally (α : Type) where
  val : α
  work : Work
  deriving DecidableEq, Repr

/-- A value that took no counted work. -/
def Tally.free {α : Type} (a : α) : Tally α := { val := a, work := {} }

/-- One part of a computation, then the rest, the work of both counted. -/
def Tally.andThen {α β : Type} (x : Tally α) (f : α → Tally β) : Tally β :=
  { val := (f x.val).val, work := x.work.plus (f x.val).work }

/-- PERMUTE, counted. -/
def permuteCounted {n L : Nat} (T : PermTable n L) (x : BitVec n) : Tally (BitVec L) :=
  { val := permute T x, work := { permutes := 1 } }

/-- ROTL, counted. -/
def rotlCounted {n : Nat} (x : BitVec (n + 1)) (k : Nat) : Tally (BitVec (n + 1)) :=
  { val := rotl x k, work := { rotls := 1 } }

/-- SBOX, counted. -/
def sboxCounted (S : SBox) (g : Half) : Tally Pair := { val := sbox S g, work := { sboxes := 1 } }

/-- KEYSCHED, counted (41_key_schedule.md R50). -/
def keyScheduleCounted (t : Tables) (k : MasterKey) : Tally (Subkey × Subkey) :=
  (permuteCounted t.p10 k).andThen fun p =>
  (rotlCounted (keyLeft p) 1).andThen fun l1 =>
  (rotlCounted (keyRight p) 1).andThen fun r1 =>
  (permuteCounted t.p8 (l1 ++ r1)).andThen fun k1 =>
  (rotlCounted l1 2).andThen fun l3 =>
  (rotlCounted r1 2).andThen fun r3 =>
  (permuteCounted t.p8 (l3 ++ r3)).andThen fun k2 =>
  Tally.free (k1, k2)

/-- ROUND, counted (42_feistel_round.md R60). -/
def roundCounted (t : Tables) (b : Block) (sk : Subkey) : Tally Block :=
  (permuteCounted t.ep (rightHalf b)).andThen fun e =>
  Tally.andThen { val := e ^^^ sk, work := { xors8 := 1 } } fun x =>
  (sboxCounted t.s0 (leftHalf x)).andThen fun s0 =>
  (sboxCounted t.s1 (rightHalf x)).andThen fun s1 =>
  (permuteCounted t.p4 (s0 ++ s1)).andThen fun f =>
  Tally.andThen { val := leftHalf b ^^^ f, work := { xors4 := 1 } } fun l =>
  Tally.free (l ++ rightHalf b)

/-- Steps 2 to 6 of the driver, counted (43_cipher_driver.md R76). -/
def twoRoundsCounted (t : Tables) (first second : Subkey) (x : Block) : Tally Block :=
  (permuteCounted t.ip x).andThen fun a =>
  (roundCounted t a first).andThen fun b =>
  Tally.andThen { val := swapHalves b, work := { swaps := 1 } } fun c =>
  (roundCounted t c second).andThen fun d =>
  permuteCounted t.ipinv d

/-- What K1, K2 and R hold after a command, and the cipher work done for it: none when the command faults
(60_exceptions.md R97), and the subkeys derived once a command (90_conflicts.md C7). -/
def commandCounted (t : Tables) (i : Instr) : Tally (Subkey × Subkey × Block) :=
  if instrFaults i then Tally.free (0, 0, 0)
  else match i with
    | .derive _ key => (keyScheduleCounted t key).andThen fun keys => Tally.free (keys.1, keys.2, 0)
    | .enc _ _ key blk => (keyScheduleCounted t key).andThen fun keys =>
        (twoRoundsCounted t keys.1 keys.2 blk).andThen fun x => Tally.free (keys.1, keys.2, x)
    | .dec _ _ key blk => (keyScheduleCounted t key).andThen fun keys =>
        (twoRoundsCounted t keys.2 keys.1 blk).andThen fun x => Tally.free (keys.1, keys.2, x)

end Sys2Proof.Machine
end

