-- ==== Sys2Proof/Safety.lean ====
section
/-! DEFINITION. The terms of the claims: the invariants of the state (10_state.md R14), the values of ST (R13), and a host's own
record of the errors of a run (60_exceptions.md R98). -/

namespace Sys2Proof.Machine

/-- The invariants (a) to (f) of 10_state.md R14. -/
structure State.Inv (s : State) : Prop where
  /-- (a) The hardwired bits of ST read 0. -/
  hardwired : s.st.getLsbD 5 = false ∧ s.st.getLsbD 3 = false ∧ s.st.getLsbD 2 = false
  /-- (b) After a fault there is no valid output and no value. -/
  faulted : s.err ≠ 0 → s.kv = false ∧ s.rv = false ∧ s.k1 = 0 ∧ s.k2 = 0 ∧ s.r = 0
  /-- (c) A valid result comes with valid subkeys. -/
  resultHasKeys : s.rv = true → s.kv = true
  /-- (d) What is not valid reads 0. -/
  invalidZero : (s.kv = false → s.k1 = 0 ∧ s.k2 = 0) ∧ (s.rv = false → s.r = 0)
  /-- (e) Valid subkeys are the subkeys of some key. -/
  keysDerived : s.kv = true → ∃ k : MasterKey, keySchedule hardwareTables k = (s.k1, s.k2)
  /-- (f) EILLEGAL stands alone. -/
  illegalAlone : s.err.getLsbD 4 = true → s.err.getLsbD 1 = false ∧ s.err.getLsbD 0 = false

/-- The values of ST after a command (10_state.md R13, the table of values without the reset value). -/
def commandStatuses : List (BitVec 8) := [0x40, 0xC0, 0x01, 0x02, 0x03, 0x10]

/-- The illegal words, by the bits of the word: the cases (a) to (d) of 30_encoding.md R34. -/
def IllegalWord (w : Word) : Prop :=
  w.extractLsb' 30 2 = 0 ∨ w.extractLsb' 28 2 ≠ 0 ∨ w.extractLsb' 18 2 ≠ 0 ∨
  (w.extractLsb' 30 2 = 1 ∧ (w.extractLsb' 20 4 ≠ 0 ∨ w.extractLsb' 0 8 ≠ 0))

/-- A list that is a permutation table of `L` entries for an input of `n` bits (40_permutation_engine.md R41, R49). -/
def PositionsWellFormed (n L : Nat) (positions : List Nat) : Prop :=
  positions.length = L ∧ ∀ p ∈ positions, 1 ≤ p ∧ p ≤ n

/-- A list of rows that is an S-box (42_feistel_round.md R65). -/
def SBoxWellFormed (rows : List (List Nat)) : Prop :=
  rows.length = 4 ∧ ∀ row ∈ rows, row.length = 4 ∧ ∀ v ∈ row, v ≤ 3

/-- A TABLES record that a core can be built from (10_state.md R17). -/
structure RawWellFormed (raw : RawTables) : Prop where
  p10 : PositionsWellFormed 10 10 raw.p10
  p8 : PositionsWellFormed 10 8 raw.p8
  ip : PositionsWellFormed 8 8 raw.ip
  ipinv : PositionsWellFormed 8 8 raw.ipinv
  ep : PositionsWellFormed 4 8 raw.ep
  p4 : PositionsWellFormed 4 4 raw.p4
  s0 : SBoxWellFormed raw.s0
  s1 : SBoxWellFormed raw.s1

/-- The record that a host keeps of every error a run of `n` steps has shown; the hardware keeps none (60_exceptions.md R98;
90_conflicts.md C10). -/
def errorsSeen : Nat → State → ErrMask
  | 0, s => s.err
  | n + 1, s =>
    match step s with
    | .next s' => s.err ||| errorsSeen n s'
    | .fault _ => s.err
    | .refused _ => s.err

end Sys2Proof.Machine
end

