-- ==== Sys2Proof/Certificates/Slice0/Obligations.lean ====
section
/-! DEFINITION. The statements for the provers. Each docstring names the rule of spec/ it formalises, or says what it is derived
from. -/

open Sys2Proof Sys2Proof.Machine

/-! ### Reset, events and the step -/

/-- 10_state.md R18. -/
def Obligations.ResetLeavesEveryRegisterZero : Prop :=
  State.reset.k1 = 0x00 ∧ State.reset.k2 = 0x00 ∧ State.reset.r = 0x00 ∧ State.reset.st = 0x00 ∧
  State.reset.rv = false ∧ State.reset.kv = false ∧ State.reset.err = 0

/-- 70_reset_and_hazards.md R105: the reset event's whole effect; power-up is the same state; no command leaves ST = 0x00;
and a core that was never reset answers a command as one that was. -/
def Obligations.ResetEventEffect : Prop :=
  (∀ (s : State) (es : List Event), s.pending = .reset :: es →
    step s = .next { k1 := 0x00, k2 := 0x00, r := 0x00, st := 0x00, pending := es }) ∧
  State.reset.outputs = { k1 := 0x00, k2 := 0x00, r := 0x00, st := 0x00 } ∧
  (∀ (s : State) (w : Word) (es : List Event), s.pending = .command w :: es →
    (∃ t, step s = .next t ∧ t.st ≠ 0x00) ∧ step s = step { State.reset with pending := s.pending })

/-- 30_encoding.md section 5: a word that decodes runs the decoded command, on the state that no longer holds the word. -/
def Obligations.StepRunsDecodedCommand : Prop :=
  ∀ (s : State) (w : Word) (es : List Event) (i : Instr),
    s.pending = .command w :: es → decode w = .ok i → step s = exec i { s with pending := es }

/-- The placement that the host uses: the very next step runs the word placed (assumption log 3). -/
def Obligations.PlacedWordRunsNext : Prop :=
  ∀ (s : State) (w : Word) (i : Instr), decode w = .ok i →
    decodeTableWord 32 w.toNat = some i ∧ step (s.withFetchWord 32 w.toNat) = exec i s

/-- With no event to take the outputs stand: the model's choice for the end of a run (assumption log 2). -/
def Obligations.IdleStepChangesNothing : Prop :=
  ∀ s : State, s.pending = [] → step s = .next s

/-- Over any number of steps from any state. While events are pending this is 70_reset_and_hazards.md R109, "every command
completes (the core cannot hang)", with R105 for a reset. For a number of steps beyond the pending events it rests on the
model's choice of an idle step (DESIGN CHOICE, assumption log 2), and that no step stops at all is the model's reading of the
spec (DEDUCED, assumption log 10). -/
def Obligations.NoRunStops : Prop :=
  ∀ (n : Nat) (s : State), ∃ t, Sys2Proof.core.run n s = .next t

/-- 20_memory.md R25: events are taken one at a time, in the host's order; after as many steps as there are events before
them, the remaining ones stand as the host gave them. -/
def Obligations.EventsTakenInOrder : Prop :=
  ∀ (s : State) (done rest : List Event), s.pending = done ++ rest →
    ∃ t, Sys2Proof.core.run done.length s = .next t ∧ t.pending = rest

/-! ### Encoding -/

/-- 30_encoding.md R31: the three rows by match and mask; a word that selects no row decodes to nothing. -/
def Obligations.TableRowsSelectCommands : Prop :=
  ∀ w : Word,
    (w &&& 0xF0FC00FF = 0x40000000 ↔ ∃ klen key, decode w = .ok (.derive klen key)) ∧
    (w &&& 0xF00C0000 = 0x80000000 ↔ ∃ klen blen key blk, decode w = .ok (.enc klen blen key blk)) ∧
    (w &&& 0xF00C0000 = 0xC0000000 ↔ ∃ klen blen key blk, decode w = .ok (.dec klen blen key blk)) ∧
    (w.extractLsb' 30 2 = 0 → ∃ why, decode w = .error why)

/-- 30_encoding.md R30: where the decoder reads each field, as numbers of the word. -/
def Obligations.DecoderReadsEachField : Prop :=
  ∀ (w : Word) (i : Instr), decode w = .ok i →
    w.toNat / 2 ^ 28 % 4 = 0 ∧ w.toNat / 2 ^ 18 % 4 = 0 ∧
    match i with
    | .derive klen key => w.toNat / 2 ^ 30 = 1 ∧ klen = w.toNat / 2 ^ 24 % 16 ∧ w.toNat / 2 ^ 20 % 16 = 0 ∧
        key.toNat = w.toNat / 2 ^ 8 % 1024 ∧ w.toNat % 256 = 0
    | .enc klen blen key blk => w.toNat / 2 ^ 30 = 2 ∧ klen = w.toNat / 2 ^ 24 % 16 ∧
        blen = w.toNat / 2 ^ 20 % 16 ∧ key.toNat = w.toNat / 2 ^ 8 % 1024 ∧ blk.toNat = w.toNat % 256
    | .dec klen blen key blk => w.toNat / 2 ^ 30 = 3 ∧ klen = w.toNat / 2 ^ 24 % 16 ∧
        blen = w.toNat / 2 ^ 20 % 16 ∧ key.toNat = w.toNat / 2 ^ 8 % 1024 ∧ blk.toNat = w.toNat % 256

/-- 30_encoding.md R33: which element of an operand is which bit of the word, and that an operand whose declared length is
wrong is ignored. -/
def Obligations.OperandsAreFieldsOrIgnored : Prop :=
  (∀ (w : Word) (klen : Nat) (key : MasterKey), decode w = .ok (.derive klen key) →
    ∀ j < 10, el key j = w.getLsbD (17 - j)) ∧
  (∀ (w : Word) (klen blen : Nat) (key : MasterKey) (blk : Block),
    decode w = .ok (.enc klen blen key blk) ∨ decode w = .ok (.dec klen blen key blk) →
    (∀ j < 10, el key j = w.getLsbD (17 - j)) ∧ (∀ j < 8, el blk j = w.getLsbD (7 - j))) ∧
  (∀ (s : State) (klen blen : Nat) (key key' : MasterKey) (blk blk' : Block),
    (klen ≠ 10 → exec (.derive klen key) s = exec (.derive klen key') s) ∧
    (klen ≠ 10 ∨ blen ≠ 8 → exec (.enc klen blen key blk) s = exec (.enc klen blen key' blk') s ∧
      exec (.dec klen blen key blk) s = exec (.dec klen blen key' blk') s))

/-- 30_encoding.md R32: KLEN is compared with 10 and BLEN with 8 and they do nothing else; the assembler declares a length
above 15 as 15, which faults the same way. -/
def Obligations.LengthsAreComparedOnly : Prop :=
  (∀ (s : State) (klen klen' blen blen' : Nat) (key : MasterKey) (blk : Block), (klen = 10 ↔ klen' = 10) →
    exec (.derive klen key) s = exec (.derive klen' key) s ∧
    ((blen = 8 ↔ blen' = 8) → exec (.enc klen blen key blk) s = exec (.enc klen' blen' key blk) s ∧
      exec (.dec klen blen key blk) s = exec (.dec klen' blen' key blk) s)) ∧
  (∀ (s : State) (key block : List Bool), 15 ≤ key.length → 15 ≤ block.length →
    ∃ wd we, assemble (.derive (key.map fun b => if b then '1' else '0')) = .ok wd ∧
      assemble (.enc (block.map fun b => if b then '1' else '0') (key.map fun b => if b then '1' else '0')) = .ok we ∧
      wd.extractLsb' 24 4 = 15 ∧ we.extractLsb' 24 4 = 15 ∧ we.extractLsb' 20 4 = 15 ∧
      (∃ t, step (s.offerFirst (.command wd)) = .next t ∧ t.st = 0x01) ∧
      (∃ t, step (s.offerFirst (.command we)) = .next t ∧ t.st = 0x03))

/-- 30_encoding.md section 4: the decoder refuses exactly the illegal words, and names a case of R34 that holds. -/
def Obligations.DecoderRefusesExactlyIllegalWords : Prop :=
  ∀ w : Word, ((∃ i, decode w = .ok i) ↔ ¬ IllegalWord w) ∧
    ∀ why, decode w = .error why → match why with
      | .opReserved => w.extractLsb' 30 2 = 0
      | .z1NotZero => w.extractLsb' 28 2 ≠ 0
      | .z2NotZero => w.extractLsb' 18 2 ≠ 0
      | .deriveBlenNotZero => w.extractLsb' 30 2 = 1 ∧ w.extractLsb' 20 4 ≠ 0
      | .deriveBlkNotZero => w.extractLsb' 30 2 = 1 ∧ w.extractLsb' 0 8 ≠ 0

/-- Decode of encode, for every well-formed command (30_encoding.md sections 1 and 2). -/
def Obligations.DecodeEncodeAgree : Prop :=
  ∀ i : Instr, i.wellFormed = true → decode (encode i) = .ok i

/-- Encode of decode, for every word that decodes: no two words decode alike (30_encoding.md sections 1 and 2). -/
def Obligations.EncodeDecodeAgree : Prop :=
  ∀ (w : Word) (i : Instr), decode w = .ok i → i.wellFormed = true ∧ encode i = w

/-- The words of the examples of 30_encoding.md section 6. -/
def Obligations.SpecExampleWordsDecode : Prop :=
  decode 0x4A028200 = .ok (.derive 10 0b1010000010) ∧
  decode 0x8A8282A5 = .ok (.enc 10 8 0b1010000010 0b10100101) ∧
  decode 0xCA8282CA = .ok (.dec 10 8 0b1010000010 0b11001010) ∧
  decode 0x8A728200 = .ok (.enc 10 7 0b1010000010 0) ∧
  decode 0x49000000 = .ok (.derive 9 0) ∧
  decode 0x8B900000 = .ok (.enc 11 9 0 0)

/-! ### The commands -/

/-- 41_key_schedule.md R56: the effect, the fault, the illegal DERIVE words and the two examples. -/
def Obligations.DeriveCommandEffect : Prop :=
  (∀ (klen : Nat) (key : MasterKey) (s : State),
    (klen = 10 → exec (.derive klen key) s = .next
      { k1 := (keySchedule hardwareTables key).1, k2 := (keySchedule hardwareTables key).2, r := 0x00, st := 0x40
        pending := s.pending }) ∧
    (klen ≠ 10 → exec (.derive klen key) s = .next
      { k1 := 0x00, k2 := 0x00, r := 0x00, st := 0x01, pending := s.pending })) ∧
  (∀ (s : State) (w : Word) (es : List Event), s.pending = .command w :: es → w.extractLsb' 30 2 = 1 →
    w.extractLsb' 28 2 ≠ 0 ∨ w.extractLsb' 18 2 ≠ 0 ∨ w.extractLsb' 20 4 ≠ 0 ∨ w.extractLsb' 0 8 ≠ 0 →
    step s = .next { k1 := 0x00, k2 := 0x00, r := 0x00, st := 0x10, pending := es }) ∧
  (∀ s : State,
    step (s.offerFirst (.command 0x4A028200)) = .next { s with k1 := 0xA4, k2 := 0x43, r := 0x00, st := 0x40 } ∧
    step (s.offerFirst (.command 0x49000000)) = .next { s with k1 := 0x00, k2 := 0x00, r := 0x00, st := 0x01 })

/-- 43_cipher_driver.md R79: the effect, the faults (each length, and both), the illegal ENC words and the two examples. -/
def Obligations.EncCommandEffect : Prop :=
  (∀ (klen blen : Nat) (key : MasterKey) (blk : Block) (s : State),
    (klen = 10 ∧ blen = 8 → exec (.enc klen blen key blk) s = .next
      { k1 := (keySchedule hardwareTables key).1, k2 := (keySchedule hardwareTables key).2
        r := encrypt hardwareTables blk key, st := 0xC0, pending := s.pending }) ∧
    (klen ≠ 10 ∧ blen = 8 → exec (.enc klen blen key blk) s = .next
      { k1 := 0x00, k2 := 0x00, r := 0x00, st := 0x01, pending := s.pending }) ∧
    (klen = 10 ∧ blen ≠ 8 → exec (.enc klen blen key blk) s = .next
      { k1 := 0x00, k2 := 0x00, r := 0x00, st := 0x02, pending := s.pending }) ∧
    (klen ≠ 10 ∧ blen ≠ 8 → exec (.enc klen blen key blk) s = .next
      { k1 := 0x00, k2 := 0x00, r := 0x00, st := 0x03, pending := s.pending })) ∧
  (∀ (s : State) (w : Word) (es : List Event), s.pending = .command w :: es → w.extractLsb' 30 2 = 2 →
    w.extractLsb' 28 2 ≠ 0 ∨ w.extractLsb' 18 2 ≠ 0 →
    step s = .next { k1 := 0x00, k2 := 0x00, r := 0x00, st := 0x10, pending := es }) ∧
  (∀ s : State,
    step (s.offerFirst (.command 0x8A8282A5)) = .next { s with k1 := 0xA4, k2 := 0x43, r := 0xCA, st := 0xC0 } ∧
    step (s.offerFirst (.command 0x8A728200)) = .next { s with k1 := 0x00, k2 := 0x00, r := 0x00, st := 0x02 })

/-- 43_cipher_driver.md R80: the effect, the faults (each length, and both), the illegal DEC words and the example. -/
def Obligations.DecCommandEffect : Prop :=
  (∀ (klen blen : Nat) (key : MasterKey) (blk : Block) (s : State),
    (klen = 10 ∧ blen = 8 → exec (.dec klen blen key blk) s = .next
      { k1 := (keySchedule hardwareTables key).1, k2 := (keySchedule hardwareTables key).2
        r := decrypt hardwareTables blk key, st := 0xC0, pending := s.pending }) ∧
    (klen ≠ 10 ∧ blen = 8 → exec (.dec klen blen key blk) s = .next
      { k1 := 0x00, k2 := 0x00, r := 0x00, st := 0x01, pending := s.pending }) ∧
    (klen = 10 ∧ blen ≠ 8 → exec (.dec klen blen key blk) s = .next
      { k1 := 0x00, k2 := 0x00, r := 0x00, st := 0x02, pending := s.pending }) ∧
    (klen ≠ 10 ∧ blen ≠ 8 → exec (.dec klen blen key blk) s = .next
      { k1 := 0x00, k2 := 0x00, r := 0x00, st := 0x03, pending := s.pending })) ∧
  (∀ (s : State) (w : Word) (es : List Event), s.pending = .command w :: es → w.extractLsb' 30 2 = 3 →
    w.extractLsb' 28 2 ≠ 0 ∨ w.extractLsb' 18 2 ≠ 0 →
    step s = .next { k1 := 0x00, k2 := 0x00, r := 0x00, st := 0x10, pending := es }) ∧
  (∀ s : State,
    step (s.offerFirst (.command 0xCA8282CA)) = .next { s with k1 := 0xA4, k2 := 0x43, r := 0xA5, st := 0xC0 })

/-- The frame of DERIVE, ENC and DEC (10_state.md section 1): a command writes K1, K2, R and ST, all four of them its
destinations, and leaves the host's further events as they are. The core has no memory to keep. -/
def Obligations.CommandFrame : Prop :=
  ∀ (i : Instr) (s t : State), exec i s = .next t → t.pending = s.pending

/-! ### Errors and the status register -/

/-- 60_exceptions.md R95: every illegal word faults with ERR = 0b10000 exactly, whatever else is wrong with it. -/
def Obligations.IllegalWordFaultsAlone : Prop :=
  ∀ (s : State) (w : Word) (es : List Event), s.pending = .command w :: es → IllegalWord w →
    ∃ t, step s = .next t ∧ t.err = 0b10000 ∧
      t = { k1 := 0x00, k2 := 0x00, r := 0x00, st := 0x10, pending := es }

/-- 60_exceptions.md R91, R92, R95 and R96: after a command word every bit of ERR tells of its own error, for all words;
legality is checked before the lengths, and neither length hides the other. -/
def Obligations.ErrorBitsTellEveryError : Prop :=
  ∀ (s : State) (w : Word) (es : List Event), s.pending = .command w :: es →
    ∃ t, step s = .next t ∧
      (t.err.getLsbD 4 = true ↔ IllegalWord w) ∧
      (t.err.getLsbD 0 = true ↔ ¬ IllegalWord w ∧ w.extractLsb' 24 4 ≠ 10) ∧
      (t.err.getLsbD 1 = true ↔ ¬ IllegalWord w ∧ w.extractLsb' 30 2 ≠ 1 ∧ w.extractLsb' 20 4 ≠ 8) ∧
      t.err.getLsbD 2 = false ∧ t.err.getLsbD 3 = false

/-- 60_exceptions.md R97: a command that faults with mask m leaves K1 = K2 = R = 0x00 and ST the mask, extended by zeros, and
nothing else. -/
def Obligations.FaultLeavesMaskAndZeros : Prop :=
  ∀ (s t : State) (w : Word) (es : List Event), s.pending = .command w :: es → step s = .next t → t.err ≠ 0 →
    t = { k1 := 0x00, k2 := 0x00, r := 0x00, st := t.err.setWidth 8, pending := es } ∧ t.rv = false ∧ t.kv = false

/-- 10_state.md section 3, the table of the values of ST, which the spec marks as derived (from R11, R12 and R97): a command
leaves one of six values, never the reset value 0x00, and for each of the six the words after which it stands. -/
def Obligations.StatusAfterEveryCommand : Prop :=
  ∀ (s : State) (w : Word) (es : List Event), s.pending = .command w :: es →
    ∃ t, step s = .next t ∧ t.st ∈ commandStatuses ∧
      (t.st = 0x40 ↔ ∃ key, decode w = .ok (.derive 10 key)) ∧
      (t.st = 0xC0 ↔ ∃ key blk, decode w = .ok (.enc 10 8 key blk) ∨ decode w = .ok (.dec 10 8 key blk)) ∧
      (t.st = 0x01 ↔ ∃ klen key, klen ≠ 10 ∧ (decode w = .ok (.derive klen key) ∨
        ∃ blk, decode w = .ok (.enc klen 8 key blk) ∨ decode w = .ok (.dec klen 8 key blk))) ∧
      (t.st = 0x02 ↔ ∃ blen key blk, blen ≠ 8 ∧
        (decode w = .ok (.enc 10 blen key blk) ∨ decode w = .ok (.dec 10 blen key blk))) ∧
      (t.st = 0x03 ↔ ∃ klen blen key blk, klen ≠ 10 ∧ blen ≠ 8 ∧
        (decode w = .ok (.enc klen blen key blk) ∨ decode w = .ok (.dec klen blen key blk))) ∧
      (t.st = 0x10 ↔ IllegalWord w)

/-- 10_state.md R13: the places of the fields of ST, for every state: RV is bit 7, KV bit 6, ERR bits 4:0; and what a command
word, legal or illegal, leaves in ST has 0 in the hardwired bits 5, 3 and 2. -/
def Obligations.StatusFieldPlaces : Prop :=
  (∀ s : State, s.st.toNat = 128 * s.rv.toNat + 64 * s.kv.toNat + 32 * (s.st.getLsbD 5).toNat + s.err.toNat) ∧
  (∀ (s : State) (w : Word) (es : List Event), s.pending = .command w :: es →
    ∃ t, step s = .next t ∧ t.st.getLsbD 5 = false ∧ t.st.getLsbD 3 = false ∧ t.st.getLsbD 2 = false) ∧
  (∀ (i : Instr) (s t : State), exec i s = .next t →
    t.st.getLsbD 5 = false ∧ t.st.getLsbD 3 = false ∧ t.st.getLsbD 2 = false)

/-- The invariants of 10_state.md R14, which the spec derives, are kept by every step from every state that meets them. -/
def Obligations.StepKeepsInvariants : Prop :=
  ∀ s t : State, s.Inv → step s = .next t → t.Inv

/-- The state after reset meets them. -/
def Obligations.ResetMeetsInvariants : Prop := State.reset.Inv

/-- They hold after any event from any state, met before or not, since a command or a reset writes every register. -/
def Obligations.AnyEventEstablishesInvariants : Prop :=
  ∀ (s t : State) (e : Event) (es : List Event), s.pending = e :: es → step s = .next t → t.Inv

/-! ### Statelessness -/

/-- 10_state.md section 9 (derived there): the outputs after a command are a function of the command word alone. -/
def Obligations.OutputsAreFunctionOfWord : Prop :=
  ∃ f : Word → OutputPort, ∀ (s : State) (w : Word) (es : List Event), s.pending = .command w :: es →
    ∃ t, step s = .next t ∧ t.outputs = f w ∧ t.pending = es

/-- 10_state.md section 9 (derived there): any two runs that end with the same command word end in the same state. -/
def Obligations.RunsEndingAlikeAgree : Prop :=
  ∀ (s s' : State) (w : Word) (es es' : List Event),
    ∃ t, Sys2Proof.core.run (es.length + 1) { s with pending := es ++ [.command w] } = .next t ∧
      Sys2Proof.core.run (es'.length + 1) { s' with pending := es' ++ [.command w] } = .next t

/-- 20_memory.md section 3: issuing the same word twice leaves the same outputs as issuing it once. -/
def Obligations.RepeatedCommandChangesNothing : Prop :=
  ∀ (i : Instr) (s t : State), exec i s = .next t → exec i t = .next t

/-- 60_exceptions.md section 4: a host's own record of a run (`errorsSeen`, a definition of the model's claims) holds exactly
the errors shown on the way, none forgotten and none invented, and the core itself forgets: the ERR that a command leaves does
not depend on the ERR, or anything else, before it, and a command without fault leaves ERR = 0 whatever stood there. -/
def Obligations.ErrorRecordForgetsNothing : Prop :=
  (∀ (n b : Nat) (s : State), (errorsSeen n s).getLsbD b = true ↔
    ∃ m ≤ n, ∃ t, Sys2Proof.core.run m s = .next t ∧ t.err.getLsbD b = true) ∧
  (∀ (s s' : State) (w : Word) (es es' : List Event), s.pending = .command w :: es → s'.pending = .command w :: es' →
    ∃ t t', step s = .next t ∧ step s' = .next t' ∧ t.err = t'.err) ∧
  (∀ (s : State) (w : Word) (es : List Event) (key : MasterKey) (blk : Block), s.pending = .command w :: es →
    decode w = .ok (.derive 10 key) ∨ decode w = .ok (.enc 10 8 key blk) ∨ decode w = .ok (.dec 10 8 key blk) →
    ∃ t, step s = .next t ∧ t.err = 0)

/-! ### The tables -/

/-- 40_permutation_engine.md R43 to R48 and 42_feistel_round.md R66 and R67: the contents, the LUT lists for output bit 0
first, and the examples. The flattened S-boxes, which R66 and R67 mark as derived, are `FlattenedSBoxes`. -/
def Obligations.TablesAsTheSpecLists : Prop :=
  hardwareTables.p10.entries.toList = [3, 5, 2, 7, 4, 10, 1, 9, 8, 6] ∧
  (List.finRange 10).map (lut hardwareTables.p10) = [4, 2, 1, 9, 0, 6, 3, 8, 5, 7] ∧
  permute hardwareTables.p10 0b1010000010 = 0b1000001100 ∧
  hardwareTables.p8.entries.toList = [6, 3, 7, 4, 8, 5, 10, 9] ∧
  (List.finRange 8).map (lut hardwareTables.p8) = [1, 0, 5, 2, 6, 3, 7, 4] ∧
  permute hardwareTables.p8 0b0000111000 = 0b10100100 ∧
  hardwareTables.ip.entries.toList = [2, 6, 3, 1, 4, 8, 5, 7] ∧
  (List.finRange 8).map (lut hardwareTables.ip) = [1, 3, 0, 4, 7, 5, 2, 6] ∧
  permute hardwareTables.ip 0b10100101 = 0b01110100 ∧
  hardwareTables.ipinv.entries.toList = [4, 1, 3, 5, 7, 2, 8, 6] ∧
  (List.finRange 8).map (lut hardwareTables.ipinv) = [2, 0, 6, 1, 3, 5, 7, 4] ∧
  permute hardwareTables.ipinv 0b10010011 = 0b11001010 ∧ permute hardwareTables.ipinv 0b01110100 = 0b10100101 ∧
  hardwareTables.ep.entries.toList = [4, 1, 2, 3, 2, 3, 4, 1] ∧
  (List.finRange 8).map (lut hardwareTables.ep) = [3, 0, 1, 2, 1, 2, 3, 0] ∧
  permute hardwareTables.ep 0b0100 = 0b00101000 ∧ permute hardwareTables.ep 0b0011 = 0b10010110 ∧
  hardwareTables.p4.entries.toList = [2, 4, 3, 1] ∧
  (List.finRange 4).map (lut hardwareTables.p4) = [3, 1, 0, 2] ∧
  permute hardwareTables.p4 0b0001 = 0b0100 ∧ permute hardwareTables.p4 0b1101 = 0b1101 ∧
  hardwareTables.s0.toList.map (·.toList) = [[1, 0, 3, 2], [3, 2, 1, 0], [0, 2, 1, 3], [3, 1, 3, 2]] ∧
  hardwareTables.s0[2][0] = 0 ∧ sboxCell hardwareTables.s0 0b1000 = 0 ∧
  hardwareTables.s0[3][2] = 3 ∧ sboxCell hardwareTables.s0 0b1101 = 3 ∧
  hardwareTables.s1.toList.map (·.toList) = [[0, 1, 2, 3], [2, 0, 1, 3], [3, 0, 1, 0], [2, 1, 0, 3]] ∧
  hardwareTables.s1[2][2] = 1 ∧ sboxCell hardwareTables.s1 0b1100 = 1 ∧
  hardwareTables.s1[1][2] = 1 ∧ sboxCell hardwareTables.s1 0b0101 = 1

/-- 40_permutation_engine.md R49: the shapes of the six tables, IPINV undoing IP among them. -/
def Obligations.TablesHaveTheirShapes : Prop :=
  TablesShaped hardwareTables ∧
  (∀ x : Block, permute hardwareTables.ipinv (permute hardwareTables.ip x) = x)

/-- Derived from 40_permutation_engine.md R41 and R49, 42_feistel_round.md R65 and 60_exceptions.md R94: a TABLES record is
accepted exactly when it is well formed, and then it holds the lists as given; the hardware's record is accepted; no command
sets ETABLE. What belongs to the check is the model's choice (DESIGN CHOICE, assumption log 14): the length of every table, the
range of its entries and the shape of the S-boxes do, and that IP and IPINV are inverse does not. -/
def Obligations.MalformedTablesRefused : Prop :=
  (∀ raw : RawTables, (∃ t, buildTables raw = .ok t) ↔ RawWellFormed raw) ∧
  (∀ (raw : RawTables) (t : Tables), buildTables raw = .ok t →
    t.p10.entries.toList = raw.p10 ∧ t.p8.entries.toList = raw.p8 ∧ t.ip.entries.toList = raw.ip ∧
    t.ipinv.entries.toList = raw.ipinv ∧ t.ep.entries.toList = raw.ep ∧ t.p4.entries.toList = raw.p4 ∧
    t.s0.toList.map (fun row => row.toList.map Fin.val) = raw.s0 ∧
    t.s1.toList.map (fun row => row.toList.map Fin.val) = raw.s1) ∧
  buildTables hardwareRawTables = .ok hardwareTables ∧
  (∀ (i : Instr) (s t : State), exec i s = .next t → t.err.getLsbD 3 = false)

/-! ### The permutation engine and the key schedule -/

/-- 40_permutation_engine.md R40: the three forms of PERMUTE, for every table. -/
def Obligations.PermuteInItsThreeForms : Prop :=
  ∀ (n L : Nat) (T : PermTable n L) (x : BitVec n),
    (∀ i : Fin L, el (permute T x) i = el x (T.entries[i] - 1)) ∧
    (∀ i : Fin L, (permute T x).getLsbD (L - 1 - i) = x.getLsbD (n - T.entries[i])) ∧
    (∀ j : Fin L, (permute T x).getLsbD j = x.getLsbD (lut T j))

/-- 40_permutation_engine.md R42: the sequence form and the vector form of ROTL, and that the amount counts modulo the
length. -/
def Obligations.RotlRotatesLeft : Prop :=
  ∀ (n : Nat) (x : BitVec (n + 1)) (k : Nat),
    (∀ i < n + 1, el (rotl x k) i = el x ((i + k) % (n + 1))) ∧
    rotl x k = x.rotateLeft k ∧ rotl x k = rotl x (k % (n + 1)) ∧ rotl x 0 = x ∧ rotl x (n + 1) = x

/-- 41_key_schedule.md R50 to R54, for every TABLES record, with the reading of C1 (K2 from three positions in all), the
corner cases and the document's known vector. -/
def Obligations.KeyScheduleSteps : Prop :=
  (∀ (t : Tables) (k p : MasterKey) (l0 r0 : KeyHalf), p = permute t.p10 k →
    (∀ i < 5, el l0 i = el p i) → (∀ i < 5, el r0 i = el p (i + 5)) →
    (keySchedule t k).1 = permute t.p8 (rotl l0 1 ++ rotl r0 1) ∧
    (keySchedule t k).2 = permute t.p8 (rotl (rotl l0 1) 2 ++ rotl (rotl r0 1) 2) ∧
    (keySchedule t k).2 = permute t.p8 (rotl l0 3 ++ rotl r0 3)) ∧
  (∀ t : Tables, keySchedule t 0b0000000000 = (0x00, 0x00) ∧ keySchedule t 0b1111111111 = (0xFF, 0xFF)) ∧
  keySchedule hardwareTables 0b1010000010 = (0b10100100, 0b01000011)

/-- 41_key_schedule.md section 1, the wiring the spec derives from R50 and the tables. -/
def Obligations.KeyScheduleWiring : Prop :=
  ∀ k : MasterKey,
    (List.range 8).map (fun i => el (keySchedule hardwareTables k).1 i) =
      [k.getLsbD 9, k.getLsbD 3, k.getLsbD 1, k.getLsbD 6, k.getLsbD 2, k.getLsbD 7, k.getLsbD 0, k.getLsbD 4] ∧
    (List.range 8).map (fun i => el (keySchedule hardwareTables k).2 i) =
      [k.getLsbD 2, k.getLsbD 7, k.getLsbD 4, k.getLsbD 5, k.getLsbD 0, k.getLsbD 8, k.getLsbD 1, k.getLsbD 9]

/-- 41_key_schedule.md section 1 (R55, derived there): different keys give different pairs. -/
def Obligations.KeyScheduleOneToOne : Prop :=
  ∀ k k' : MasterKey, keySchedule hardwareTables k = keySchedule hardwareTables k' → k = k'

/-! ### The round -/

/-- 42_feistel_round.md R65 and R68: the row from the outer bits, the column from the inner bits, and the cell as a pair, high
bit first, for every S-box and group. -/
def Obligations.SBoxSelectsCell : Prop :=
  ∀ (S : SBox) (g : Half) (row col : Fin 4),
    row.val = 2 * (g.getLsbD 3).toNat + (g.getLsbD 0).toNat →
    col.val = 2 * (g.getLsbD 2).toNat + (g.getLsbD 1).toNat →
    (sbox S g).toNat = S[row][col] ∧
    (el (sbox S g) 0).toNat = S[row][col].val / 2 ∧ (el (sbox S g) 1).toNat = S[row][col].val % 2

/-- 42_feistel_round.md R61 to R64, R69 and R70, for every TABLES record, elements counted as the document counts them. -/
def Obligations.RoundSteps : Prop :=
  ∀ (t : Tables) (b : Block) (sk : Subkey) (l rt g0 g1 : Half) (x : BitVec 8),
    (∀ i < 4, el l i = el b i) → (∀ i < 4, el rt i = el b (i + 4)) →
    (∀ i < 8, el x i = xor (el (permute t.ep rt) i) (el sk i)) →
    (∀ i < 4, el g0 i = el x i) → (∀ i < 4, el g1 i = el x (i + 4)) →
    fFunction t rt sk = permute t.p4 (sbox t.s0 g0 ++ sbox t.s1 g1) ∧
    feistelRound t b sk = (l ^^^ fFunction t rt sk) ++ rt

/-- 42_feistel_round.md section 3 (R71, derived there), for every TABLES record. -/
def Obligations.RoundTwiceIsIdentity : Prop :=
  ∀ (t : Tables) (b : Block) (sk : Subkey), feistelRound t (feistelRound t b sk) sk = b

/-- 43_cipher_driver.md section 1: the halves exchanged, and exchanged again (derived there). -/
def Obligations.SwapExchangesHalves : Prop :=
  ∀ b : Block, (∀ i < 4, el (swapHalves b) i = el b (i + 4) ∧ el (swapHalves b) (i + 4) = el b i) ∧
    swapHalves (swapHalves b) = b

/-! ### The cipher -/

/-- 43_cipher_driver.md R76 and R77: the six steps, for every TABLES record; decryption with the subkeys in the other order
and nothing else changed; the document's known vector both ways. -/
def Obligations.CipherSteps : Prop :=
  (∀ (t : Tables) (x : Block) (k : MasterKey) (k1 k2 : Subkey), keySchedule t k = (k1, k2) →
    encrypt t x k = permute t.ipinv (feistelRound t (swapHalves (feistelRound t (permute t.ip x) k1)) k2) ∧
    decrypt t x k = permute t.ipinv (feistelRound t (swapHalves (feistelRound t (permute t.ip x) k2)) k1) ∧
    (k1 = k2 → encrypt t x k = decrypt t x k)) ∧
  encrypt hardwareTables 0b10100101 0b1010000010 = 0b11001010 ∧
  decrypt hardwareTables 0b11001010 0b1010000010 = 0b10100101

/-- 43_cipher_driver.md R78, for every TABLES record whose IP and IPINV are inverse to each other, the hardware's among
them; the second direction is derived there. -/
def Obligations.DecryptUndoesEncrypt : Prop :=
  (∀ (t : Tables), TablesInverse t → ∀ (x : Block) (k : MasterKey),
    decrypt t (encrypt t x k) k = x ∧ encrypt t (decrypt t x k) k = x) ∧
  TablesInverse hardwareTables

/-- 43_cipher_driver.md section 4 (R81, derived there). -/
def Obligations.EncryptIsBijection : Prop :=
  ∀ (t : Tables), TablesInverse t → ∀ k : MasterKey,
    Function.Bijective (fun x => encrypt t x k) ∧ Function.Bijective (fun x => decrypt t x k)

/-- The round trip at the ports: ENC, the host reads R, DEC of what it read under the same key: R is the plaintext again, and
both commands show the same subkeys (derived from 43_cipher_driver.md sections 2 and 3). -/
def Obligations.DecCommandUndoesEncCommand : Prop :=
  ∀ (s : State) (key : MasterKey) (blk : Block),
    ∃ t u, step (s.offerFirst (.command (encode (.enc 10 8 key blk)))) = .next t ∧
      step (t.offerFirst (.command (encode (.dec 10 8 key t.r)))) = .next u ∧
      u.r = blk ∧ u.k1 = t.k1 ∧ u.k2 = t.k2 ∧ t.st = 0xC0 ∧ u.st = 0xC0 ∧ u.pending = s.pending

/-- For every command word the machine answers what the reference evaluator of 95_test_vectors.md section 6, an independent
formulation in sequences and numbers, answers. -/
def Obligations.MachineMatchesReference : Prop :=
  ∀ (s : State) (w : Word) (es : List Event), s.pending = .command w :: es →
    ∃ t, step s = .next t ∧ t.pending = es ∧
      (t.k1.toNat, t.k2.toNat, t.r.toNat, t.st.toNat) = seqExec w.toNat

/-! ### Ports, time and text -/

/-- 20_memory.md section 1: the places of the four registers in the 32-bit output word. -/
def Obligations.OutputWordPlaces : Prop :=
  ∀ s : State, s.outputWord.toNat = 2 ^ 24 * s.st.toNat + 2 ^ 16 * s.k1.toNat + 2 ^ 8 * s.k2.toNat + s.r.toNat

/-- 70_reset_and_hazards.md section 4: the time of a command does not depend on the key or the block, whatever the open
latencies are: for commands that differ in nothing else, and for any two words, legal or illegal, that agree in bits 31:18 (all
but KEY and BLK) and in being legal. `commandTime`, the 1 in it that makes it positive and the latency that it gives an illegal
word are the model's choice (DESIGN CHOICE, assumption log 8). -/
def Obligations.TimeDoesNotDependOnData : Prop :=
  (∀ w : Word, 0 < commandTime w) ∧
  (∀ (klen blen : Nat) (key key' : MasterKey) (blk blk' : Block),
    commandTime (encode (.derive klen key)) = commandTime (encode (.derive klen key')) ∧
    commandTime (encode (.enc klen blen key blk)) = commandTime (encode (.enc klen blen key' blk')) ∧
    commandTime (encode (.dec klen blen key blk)) = commandTime (encode (.dec klen blen key' blk'))) ∧
  (∀ w w' : Word, w.extractLsb' 18 14 = w'.extractLsb' 18 14 → (IllegalWord w ↔ IllegalWord w') →
    commandTime w = commandTime w')

/-- 70_reset_and_hazards.md section 4 (derived there): the work counts, the same for every key, block and TABLES record, none
for a command that faults; and the counted computation gives the registers that the command leaves. -/
def Obligations.WorkCountsAreFixed : Prop :=
  (∀ (t : Tables) (i : Instr), instrFaults i = true → (commandCounted t i).work = {}) ∧
  (∀ (t : Tables) (key : MasterKey), (commandCounted t (.derive 10 key)).work = { permutes := 3, rotls := 4 }) ∧
  (∀ (t : Tables) (key : MasterKey) (blk : Block),
    (commandCounted t (.enc 10 8 key blk)).work =
      { permutes := 9, rotls := 4, sboxes := 4, xors8 := 2, xors4 := 2, swaps := 1 } ∧
    (commandCounted t (.dec 10 8 key blk)).work =
      { permutes := 9, rotls := 4, sboxes := 4, xors8 := 2, xors4 := 2, swaps := 1 }) ∧
  (∀ (i : Instr) (s t : State), exec i s = .next t → (commandCounted hardwareTables i).val = (t.k1, t.k2, t.r))

/-- 30_encoding.md section 6: the fields the assembler gives operand strings of the characters 0 and 1, of any length. -/
def Obligations.AssemblerFieldsOfStrings : Prop :=
  ∀ (key block : List Bool) (ks bs : List Char),
    ks = key.map (fun b => if b then '1' else '0') → bs = block.map (fun b => if b then '1' else '0') →
    ∃ wd we wx, assemble (.derive ks) = .ok wd ∧ assemble (.enc bs ks) = .ok we ∧ assemble (.dec bs ks) = .ok wx ∧
      decode wd = .ok (.derive (min key.length 15) (if key.length = 10 then ofSequence 10 key else 0)) ∧
      decode we = .ok (.enc (min key.length 15) (min block.length 15) (if key.length = 10 then ofSequence 10 key else 0)
        (if block.length = 8 then ofSequence 8 block else 0)) ∧
      decode wx = .ok (.dec (min key.length 15) (min block.length 15) (if key.length = 10 then ofSequence 10 key else 0)
        (if block.length = 8 then ofSequence 8 block else 0))

/-- 60_exceptions.md R93: an operand string with a character other than 0 and 1 is refused and yields no word; no command sets
EBITVAL. -/
def Obligations.BadCharacterRefused : Prop :=
  (∀ (key block : List Char) (c : Char), c ≠ '0' → c ≠ '1' →
    (c ∈ key → assemble (.derive key) = .error .invalidBitValue) ∧
    (c ∈ key ∨ c ∈ block → assemble (.enc block key) = .error .invalidBitValue ∧
      assemble (.dec block key) = .error .invalidBitValue)) ∧
  (∀ (i : Instr) (s t : State), exec i s = .next t → t.err.getLsbD 2 = false)

/-- 30_encoding.md section 6: what the disassembler prints of a word assembles to that word, for every word; a legal word with
KLEN = 10, and BLEN = 8 for ENC and DEC, is given in its mnemonic form with strings of full width, element 0 first, and every
other word as .word. -/
def Obligations.AssembleDisassembleAgree : Prop :=
  (∀ w : Word, assemble (disassemble w) = .ok w) ∧
  (∀ (w : Word) (key : MasterKey), decode w = .ok (.derive 10 key) →
    disassemble w = .derive ((List.range 10).map fun i => if el key i then '1' else '0')) ∧
  (∀ (w : Word) (key : MasterKey) (blk : Block),
    (decode w = .ok (.enc 10 8 key blk) → disassemble w =
      .enc ((List.range 8).map fun i => if el blk i then '1' else '0')
        ((List.range 10).map fun i => if el key i then '1' else '0')) ∧
    (decode w = .ok (.dec 10 8 key blk) → disassemble w =
      .dec ((List.range 8).map fun i => if el blk i then '1' else '0')
        ((List.range 10).map fun i => if el key i then '1' else '0'))) ∧
  (∀ w : Word, (∀ (key : MasterKey) (blk : Block), decode w ≠ .ok (.derive 10 key) ∧
      decode w ≠ .ok (.enc 10 8 key blk) ∧ decode w ≠ .ok (.dec 10 8 key blk)) →
    disassemble w = .word w)

/-- 30_encoding.md section 6: the text of a disassembled word, in the model's layout (assumption log 12), reads as the line it
was printed from. -/
def Obligations.PrintedLineReadsBack : Prop :=
  ∀ w : Word, parseLine (printLine (disassemble w)) = .ok (disassemble w)

/-! ### The flattened S-boxes -/

/-- 42_feistel_round.md section 2: S0 and S1 flattened by the value of the group, the lists that R66 and R67 mark as derived
from themselves and R65. -/
def Obligations.FlattenedSBoxes : Prop :=
  (List.range 16).map (fun g => sboxCell hardwareTables.s0 (BitVec.ofNat 4 g)) =
    [1, 3, 0, 2, 3, 1, 2, 0, 0, 3, 2, 1, 1, 3, 3, 2] ∧
  (List.range 16).map (fun g => sboxCell hardwareTables.s1 (BitVec.ofNat 4 g)) =
    [0, 2, 1, 0, 2, 1, 3, 3, 3, 2, 0, 1, 1, 0, 0, 3]
end

