-- ==== Sys2Proof/Laws/Decode.lean ====
section
/-! SUPPORT. The fields of a packed word (30_encoding.md R30). -/

namespace Sys2Proof

variable (op : BitVec 2) (klen blen : Nat) (key : MasterKey) (blk : Block)

@[simp] theorem opField_packWord : opField (packWord op klen blen key blk) = op := by
  apply BitVec.eq_of_getLsbD_eq
  intro i h
  simp only [opField, packWord, BitVec.getLsbD_extractLsb', BitVec.getLsbD_append]
  interval_cases i <;> simp

@[simp] theorem z1Field_packWord : z1Field (packWord op klen blen key blk) = 0 := by
  apply BitVec.eq_of_getLsbD_eq
  intro i h
  simp only [z1Field, packWord, BitVec.getLsbD_extractLsb', BitVec.getLsbD_append]
  interval_cases i <;> simp

@[simp] theorem klenField_packWord : klenField (packWord op klen blen key blk) = BitVec.ofNat 4 klen := by
  apply BitVec.eq_of_getLsbD_eq
  intro i h
  simp only [klenField, packWord, BitVec.getLsbD_extractLsb', BitVec.getLsbD_append]
  interval_cases i <;> simp

@[simp] theorem blenField_packWord : blenField (packWord op klen blen key blk) = BitVec.ofNat 4 blen := by
  apply BitVec.eq_of_getLsbD_eq
  intro i h
  simp only [blenField, packWord, BitVec.getLsbD_extractLsb', BitVec.getLsbD_append]
  interval_cases i <;> simp

@[simp] theorem z2Field_packWord : z2Field (packWord op klen blen key blk) = 0 := by
  apply BitVec.eq_of_getLsbD_eq
  intro i h
  simp only [z2Field, packWord, BitVec.getLsbD_extractLsb', BitVec.getLsbD_append]
  interval_cases i <;> simp

@[simp] theorem keyField_packWord : keyField (packWord op klen blen key blk) = key := by
  apply BitVec.eq_of_getLsbD_eq
  intro i h
  simp only [keyField, packWord, BitVec.getLsbD_extractLsb', BitVec.getLsbD_append]
  interval_cases i <;> simp

@[simp] theorem blkField_packWord : blkField (packWord op klen blen key blk) = blk := by
  apply BitVec.eq_of_getLsbD_eq
  intro i h
  simp only [blkField, packWord, BitVec.getLsbD_extractLsb', BitVec.getLsbD_append]
  interval_cases i <;> simp

/-- A word is its seven fields side by side. -/
theorem word_eq_fields (w : Word) :
    w = opField w ++ z1Field w ++ klenField w ++ blenField w ++ z2Field w ++ keyField w ++ blkField w := by
  apply BitVec.eq_of_getLsbD_eq
  intro i h
  simp only [opField, z1Field, klenField, blenField, z2Field, keyField, blkField, BitVec.getLsbD_extractLsb',
    BitVec.getLsbD_append]
  interval_cases i <;> simp

/-- A word whose reserved fields are 0 is the packing of its other fields. -/
theorem packWord_fields (w : Word) (h1 : z1Field w = 0) (h2 : z2Field w = 0) :
    packWord (opField w) (klenField w).toNat (blenField w).toNat (keyField w) (blkField w) = w := by
  conv => rhs; rw [word_eq_fields w, h1, h2]
  simp [packWord]

end Sys2Proof
end

