-- ==== Sys2Proof/Laws/PerInstr.lean ====
section
/-! SUPPORT. The statements made per instruction. -/

namespace Sys2Proof.Laws.EncodeMatchesRow

/-- The mask of the instruction's row of spec/opcode_table.json. -/
def rowMask : Instr → Word
  | .derive _ _ => 0xF0FC00FF
  | .enc _ _ _ _ => 0xF00C0000
  | .dec _ _ _ _ => 0xF00C0000

/-- The match value of the instruction's row of spec/opcode_table.json. -/
def rowMatch : Instr → Word
  | .derive _ _ => 0x40000000
  | .enc _ _ _ _ => 0x80000000
  | .dec _ _ _ _ => 0xC0000000

/-- The word of an instruction selects the instruction's own row of the table (30_encoding.md R31). -/
def Statement (i : Instr) : Prop := encode i &&& rowMask i = rowMatch i

theorem derive (klen : Nat) (key : MasterKey) : Statement (.derive klen key) := by
  apply BitVec.eq_of_getLsbD_eq
  intro i h
  simp only [encode, packWord, rowMask, rowMatch, BitVec.getLsbD_and, BitVec.getLsbD_append]
  interval_cases i <;> simp

theorem enc (klen blen : Nat) (key : MasterKey) (blk : Block) : Statement (.enc klen blen key blk) := by
  apply BitVec.eq_of_getLsbD_eq
  intro i h
  simp only [encode, packWord, rowMask, rowMatch, BitVec.getLsbD_and, BitVec.getLsbD_append]
  interval_cases i <;> simp

theorem dec (klen blen : Nat) (key : MasterKey) (blk : Block) : Statement (.dec klen blen key blk) := by
  apply BitVec.eq_of_getLsbD_eq
  intro i h
  simp only [encode, packWord, rowMask, rowMatch, BitVec.getLsbD_and, BitVec.getLsbD_append]
  interval_cases i <;> simp

end Sys2Proof.Laws.EncodeMatchesRow
end

