-- ==== Sys2Proof/Laws/Sequence.lean ====
section
/-! SUPPORT. Vectors as sequences: an element of what is built from elements, and equality by elements. -/

namespace Sys2Proof.Machine

@[simp] theorem el_ofElements {n : Nat} (f : Fin n → Bool) (i : Nat) (h : i < n) :
    el (ofElements f) i = f ⟨i, h⟩ := by
  simp [el, ofElements, BitVec.getMsbD_ofFnBE, h]

/-- A vector is its elements. -/
theorem eq_of_el {n : Nat} {x y : BitVec n} (h : ∀ i < n, el x i = el y i) : x = y :=
  BitVec.eq_of_getMsbD_eq h

/-- An element of a concatenation: the elements of `a`, then those of `b` (00_scope.md R8). -/
theorem el_append {m n : Nat} (a : BitVec m) (b : BitVec n) (i : Nat) :
    el (a ++ b) i = if i < m then el a i else el b (i - m) := by
  simp only [el, BitVec.getMsbD_append]
  by_cases h : m ≤ i <;> simp [h, Nat.not_lt.mpr, Nat.lt_of_not_le]

theorem el_xor {n : Nat} (a b : BitVec n) (i : Nat) : el (a ^^^ b) i = (el a i ^^ el b i) := by
  simp [el]

/-- An element beyond the end reads as absent. -/
theorem el_of_ge {n : Nat} (x : BitVec n) (i : Nat) (h : n ≤ i) : el x i = false := by
  simp [el, BitVec.getMsbD, Nat.not_lt.mpr h]

/-- Element `i` of a vector is bit `n-1-i` (00_scope.md R7). -/
theorem el_eq_getLsbD {n : Nat} (x : BitVec n) (i : Nat) (h : i < n) : el x i = x.getLsbD (n - 1 - i) := by
  simp [el, BitVec.getMsbD, h]

@[simp] theorem elements_length {n : Nat} (x : BitVec n) : (elements x).length = n := by simp [elements]

theorem elements_getD {n : Nat} (x : BitVec n) (i : Nat) : (elements x).getD i false = el x i := by
  by_cases h : i < n
  · simp [elements, List.getD, h]
  · simp [elements, List.getD, el_of_ge x i (by omega), h]

/-- A vector is the sequence of its elements. -/
@[simp] theorem ofSequence_elements {n : Nat} (x : BitVec n) : ofSequence n (elements x) = x :=
  eq_of_el fun i h => by rw [ofSequence, el_ofElements _ i h, elements_getD]

@[simp] theorem el_leftHalf (b : Block) (i : Nat) (h : i < 4) : el (leftHalf b) i = el b i := by
  rw [el_eq_getLsbD _ i h, el_eq_getLsbD _ i (by omega)]
  simp only [leftHalf, BitVec.getLsbD_extractLsb', show (4 - 1 - i < 4) = True by simp; omega, decide_true, Bool.true_and]
  congr 1; omega

@[simp] theorem el_rightHalf (b : Block) (i : Nat) (h : i < 4) : el (rightHalf b) i = el b (i + 4) := by
  rw [el_eq_getLsbD _ i h, el_eq_getLsbD _ (i + 4) (by omega)]
  simp only [rightHalf, BitVec.getLsbD_extractLsb', show (4 - 1 - i < 4) = True by simp; omega, decide_true, Bool.true_and]
  congr 1; omega

@[simp] theorem el_keyLeft (p : MasterKey) (i : Nat) (h : i < 5) : el (keyLeft p) i = el p i := by
  rw [el_eq_getLsbD _ i h, el_eq_getLsbD _ i (by omega)]
  simp only [keyLeft, BitVec.getLsbD_extractLsb', show (5 - 1 - i < 5) = True by simp; omega, decide_true, Bool.true_and]
  congr 1; omega

@[simp] theorem el_keyRight (p : MasterKey) (i : Nat) (h : i < 5) : el (keyRight p) i = el p (i + 5) := by
  rw [el_eq_getLsbD _ i h, el_eq_getLsbD _ (i + 5) (by omega)]
  simp only [keyRight, BitVec.getLsbD_extractLsb', show (5 - 1 - i < 5) = True by simp; omega, decide_true, Bool.true_and]
  congr 1; omega

/-- A block is its halves. -/
theorem leftHalf_append_rightHalf (b : Block) : leftHalf b ++ rightHalf b = b :=
  eq_of_el fun i h => by
    rw [el_append]
    split
    · exact el_leftHalf b i (by omega)
    · rw [el_rightHalf b (i - 4) (by omega)]; congr 1; omega

@[simp] theorem leftHalf_append (a b : Half) : leftHalf (a ++ b) = a :=
  eq_of_el fun i h => by rw [el_leftHalf _ i h, el_append, if_pos h]

@[simp] theorem rightHalf_append (a b : Half) : rightHalf (a ++ b) = b :=
  eq_of_el fun i h => by rw [el_rightHalf _ i h, el_append, if_neg (by omega), Nat.add_sub_cancel]

/-- The one lemma about PERMUTE: each element of the result (40_permutation_engine.md R40). -/
@[simp] theorem el_permute {n L : Nat} (T : PermTable n L) (x : BitVec n) (i : Fin L) :
    el (permute T x) i = el x (tableIndex T i) := by
  rw [permute, el_ofElements _ i.val i.isLt]

/-- Reading through two tables in turn. -/
theorem el_permute_permute {n L M : Nat} (A : PermTable L M) (B : PermTable n L) (x : BitVec n) (i : Fin M) :
    el (permute A (permute B x)) i = el x (tableIndex B (tableIndex A i)) := by
  rw [el_permute, el_permute]

/-- The one lemma about ROTL: each element of the result (40_permutation_engine.md R42). -/
theorem el_rotl {n : Nat} (x : BitVec (n + 1)) (k i : Nat) (h : i < n + 1) :
    el (rotl x k) i = el x ((i + k % (n + 1)) % (n + 1)) := by
  rw [rotl, el_ofElements _ i h]

end Sys2Proof.Machine
end

