-- ==== Sys2Proof/Laws/State.lean ====
section
/-! SUPPORT. The fields of State after each update, and the fields of ST after each value written to it. -/

namespace Sys2Proof.Machine

variable (k1 k2 : Subkey) (r : Block) (st : BitVec 8) (s : State) (e : Event)

@[simp] theorem writeAll_k1 : (s.writeAll k1 k2 r st).k1 = k1 := rfl
@[simp] theorem writeAll_k2 : (s.writeAll k1 k2 r st).k2 = k2 := rfl
@[simp] theorem writeAll_r : (s.writeAll k1 k2 r st).r = r := rfl
@[simp] theorem writeAll_st : (s.writeAll k1 k2 r st).st = st := rfl
@[simp] theorem writeAll_pending : (s.writeAll k1 k2 r st).pending = s.pending := rfl

@[simp] theorem offerFirst_k1 : (s.offerFirst e).k1 = s.k1 := rfl
@[simp] theorem offerFirst_k2 : (s.offerFirst e).k2 = s.k2 := rfl
@[simp] theorem offerFirst_r : (s.offerFirst e).r = s.r := rfl
@[simp] theorem offerFirst_st : (s.offerFirst e).st = s.st := rfl
@[simp] theorem offerFirst_pending : (s.offerFirst e).pending = e :: s.pending := rfl

@[simp] theorem offer_k1 : (s.offer e).k1 = s.k1 := rfl
@[simp] theorem offer_k2 : (s.offer e).k2 = s.k2 := rfl
@[simp] theorem offer_r : (s.offer e).r = s.r := rfl
@[simp] theorem offer_st : (s.offer e).st = s.st := rfl
@[simp] theorem offer_pending : (s.offer e).pending = s.pending ++ [e] := rfl

@[simp] theorem outputs_k1 : s.outputs.k1 = s.k1 := rfl
@[simp] theorem outputs_k2 : s.outputs.k2 = s.k2 := rfl
@[simp] theorem outputs_r : s.outputs.r = s.r := rfl
@[simp] theorem outputs_st : s.outputs.st = s.st := rfl

/-- Everything a write of the four registers does: it keeps the pending events and nothing else. -/
theorem writeAll_eq : s.writeAll k1 k2 r st = { k1 := k1, k2 := k2, r := r, st := st, pending := s.pending } := rfl

/-- Two states that agree on the pending events agree after a write of the four registers. -/
theorem writeAll_congr {s s' : State} (h : s.pending = s'.pending) :
    s.writeAll k1 k2 r st = s'.writeAll k1 k2 r st := by
  simp only [writeAll_eq, h]

/-- The fields of every value of ST: RV is bit 7 of what was composed. -/
@[simp] theorem statusOf_rv (rv kv : Bool) (err : ErrMask) : (statusOf rv kv err).getLsbD 7 = rv := by
  revert rv kv err; decide

/-- KV is bit 6. -/
@[simp] theorem statusOf_kv (rv kv : Bool) (err : ErrMask) : (statusOf rv kv err).getLsbD 6 = kv := by
  revert rv kv err; decide

/-- The reserved bit 5 is 0. -/
@[simp] theorem statusOf_reserved (rv kv : Bool) (err : ErrMask) : (statusOf rv kv err).getLsbD 5 = false := by
  revert rv kv err; decide

/-- ERR is bits 4:0. -/
@[simp] theorem statusOf_err (rv kv : Bool) (err : ErrMask) : (statusOf rv kv err).extractLsb' 0 5 = err := by
  revert rv kv err; decide

/-- A fault's ST is the mask extended by zeros (60_exceptions.md R97). -/
theorem statusOf_fault (err : ErrMask) : statusOf false false err = err.setWidth 8 := by
  revert err; decide

end Sys2Proof.Machine
end

