-- ==== Sys2Proof/Laws/Step.lean ====
section
/-! SUPPORT. Everything that a command, an event and a step can do. -/

namespace Sys2Proof.Machine

/-- The three ways a command or a reset leaves the registers: a fault mask with zeros, subkeys alone, or subkeys and a
result. -/
inductive EventResult : State → State → Prop where
  /-- A fault with a mask of the length errors, or EILLEGAL (60_exceptions.md R97). -/
  | fault (s : State) (m : ErrMask) (h : m ∈ [eKeyLen, eBlkLen, eKeyLen ||| eBlkLen, eIllegal]) :
      EventResult s (raiseFault m s)
  /-- DERIVE without fault (41_key_schedule.md R56). -/
  | subkeys (s : State) (key : MasterKey) : EventResult s (showSubkeys (keySchedule hardwareTables key) s)
  /-- ENC or DEC without fault (43_cipher_driver.md R79, R80). -/
  | result (s : State) (key : MasterKey) (x : Block) :
      EventResult s (showResult (keySchedule hardwareTables key) x s)

/-- The masks the two length checks can give together. -/
theorem lengthErr_mem (klen blen : Nat) (h : keyLenErr klen ||| blkLenErr blen ≠ 0) :
    keyLenErr klen ||| blkLenErr blen ∈ [eKeyLen, eBlkLen, eKeyLen ||| eBlkLen, eIllegal] := by
  unfold keyLenErr blkLenErr at *
  split at h <;> split at h <;> first | decide | simp_all

/-- The key length check passes exactly when KLEN is 10. -/
@[simp] theorem keyLenErr_eq_zero (klen : Nat) : keyLenErr klen = 0 ↔ klen = 10 := by
  unfold keyLenErr; split <;> simp_all [eKeyLen]

/-- The block length check passes exactly when BLEN is 8. -/
@[simp] theorem blkLenErr_eq_zero (blen : Nat) : blkLenErr blen = 0 ↔ blen = 8 := by
  unfold blkLenErr; split <;> simp_all [eBlkLen]

/-- Both length checks pass exactly when both lengths are proper. -/
theorem lengthErr_eq_zero (klen blen : Nat) :
    keyLenErr klen ||| blkLenErr blen = 0 ↔ klen = 10 ∧ blen = 8 := by
  unfold keyLenErr blkLenErr; split <;> split <;> simp_all [eKeyLen, eBlkLen]

/-- DERIVE, whatever its operands. -/
theorem deriveCommand_result (klen : Nat) (key : MasterKey) (s : State) :
    EventResult s (deriveCommand hardwareTables klen key s) := by
  unfold deriveCommand
  by_cases h : keyLenErr klen = 0
  · rw [h]; exact .subkeys s key
  · rw [if_pos h]
    have := lengthErr_mem klen 8 (by simpa [blkLenErr] using h)
    exact .fault s _ (by simpa [blkLenErr] using this)

/-- ENC and DEC, whatever their operands. -/
theorem blockCommand_result (f : Tables → Block → MasterKey → Block) (klen blen : Nat) (key : MasterKey) (blk : Block)
    (s : State) : EventResult s (blockCommand hardwareTables f klen blen key blk s) := by
  unfold blockCommand
  by_cases h : keyLenErr klen ||| blkLenErr blen = 0
  · rw [h]; exact .result s key (f hardwareTables blk key)
  · rw [if_pos h]; exact .fault s _ (lengthErr_mem klen blen h)

/-- Every command answers a next state, and this is what it can be. -/
theorem exec_result (i : Instr) (s : State) : ∃ t, exec i s = .next t ∧ EventResult s t := by
  cases i with
  | derive klen key => exact ⟨_, rfl, deriveCommand_result klen key s⟩
  | enc klen blen key blk => exact ⟨_, rfl, blockCommand_result encrypt klen blen key blk s⟩
  | dec klen blen key blk => exact ⟨_, rfl, blockCommand_result decrypt klen blen key blk s⟩

/-- Every command word answers a next state, and this is what it can be. -/
theorem issueWord_result (w : Word) (s : State) : ∃ t, issueWord w s = .next t ∧ EventResult s t := by
  unfold issueWord
  split
  · exact exec_result _ s
  · exact ⟨_, rfl, .fault s eIllegal (by decide)⟩

/-- Such a result keeps the pending events. -/
theorem EventResult.pending {s t : State} (h : EventResult s t) : t.pending = s.pending := by
  cases h <;> rfl

/-- A step with a command word at the port. -/
theorem step_command {s : State} {w : Word} {es : List Event} (h : s.pending = .command w :: es) :
    step s = issueWord w { s with pending := es } := by
  simp [step, State.takeEvent, h, runEvent]

/-- A step with a reset at the port. -/
theorem step_reset {s : State} {es : List Event} (h : s.pending = .reset :: es) :
    step s = .next { k1 := 0x00, k2 := 0x00, r := 0x00, st := 0x00, pending := es } := by
  simp [step, State.takeEvent, h, runEvent, resetRegisters, writeAll_eq]

/-- A step with nothing at the port. -/
theorem step_idle {s : State} (h : s.pending = []) : step s = .next s := by
  simp [step, State.takeEvent, h, idle]

/-- A step answers a next state and takes at most one event. -/
theorem step_total (s : State) : ∃ t, step s = .next t ∧ t.pending = s.pending.tail := by
  rcases h : s.pending with _ | ⟨w | _, es⟩
  · exact ⟨s, step_idle h, by simp [h]⟩
  · obtain ⟨t, ht, hr⟩ := issueWord_result w { s with pending := es }
    exact ⟨t, by rw [step_command h, ht], hr.pending⟩
  · exact ⟨_, step_reset h, rfl⟩

end Sys2Proof.Machine
end

