-- ==== Sys2Proof/Tests/Slice0.lean ====
section
/-! SUPPORT. Tests against the values of spec/95_test_vectors.md and the examples of the rules, and a witness for every statement
that has hypotheses. -/

namespace Sys2Proof.Tests

open Sys2Proof.Machine

/-- The reset state with one command word at the port. -/
def withWord (w : Word) : State := { State.reset with pending := [.command w] }

/-- The state that a step from `s` leaves, if it leaves one. -/
def nextOf (s : State) : Option State :=
  match step s with
  | .next t => some t
  | _ => none

/-- K1, K2, R and ST after a command word. -/
def after (w : Word) : Option (Subkey × Subkey × Block × BitVec 8) :=
  (nextOf (withWord w)).map fun t => (t.k1, t.k2, t.r, t.st)

/-! ### Well-formedness: an ill-formed term for each check (30_encoding.md R32) -/

theorem test_wellFormed_proper : (Instr.enc 10 8 0x282 0xA5).wellFormed = true := by decide
theorem test_wellFormed_boundary : (Instr.dec 15 15 0x3FF 0xFF).wellFormed = true := by decide
theorem test_illFormed_derive_klen : (Instr.derive 16 0x282).wellFormed = false := by decide
theorem test_illFormed_enc_klen : (Instr.enc 16 8 0x282 0xA5).wellFormed = false := by decide
theorem test_illFormed_enc_blen : (Instr.enc 10 16 0x282 0xA5).wellFormed = false := by decide
theorem test_illFormed_dec_klen : (Instr.dec 16 8 0x282 0xA5).wellFormed = false := by decide
theorem test_illFormed_dec_blen : (Instr.dec 10 16 0x282 0xA5).wellFormed = false := by decide

/-! ### Decoding: words written out bit by bit from 30_encoding.md R30 and R31 -/

theorem test_decode_derive : decode 0b01_00_1010_0000_00_1010000010_00000000 = .ok (.derive 10 0b1010000010) := by rfl
theorem test_decode_enc :
    decode 0b10_00_1010_1000_00_1010000010_10100101 = .ok (.enc 10 8 0b1010000010 0b10100101) := by rfl
theorem test_decode_dec :
    decode 0b11_00_1010_1000_00_1010000010_11001010 = .ok (.dec 10 8 0b1010000010 0b11001010) := by rfl
theorem test_decode_enc_unequal_fields :
    decode 0b10_00_0001_0010_00_0000000001_10000000 = .ok (.enc 1 2 0b0000000001 0b10000000) := by rfl
theorem test_decode_op_reserved : decode 0b00_00_1010_1000_00_1010000010_10100101 = .error .opReserved := by rfl
theorem test_decode_z1 : decode 0b10_01_1010_1000_00_1010000010_10100101 = .error .z1NotZero := by rfl
theorem test_decode_z2 : decode 0b10_00_1010_1000_01_1010000010_10100101 = .error .z2NotZero := by rfl
theorem test_decode_derive_blen : decode 0b01_00_1010_0001_00_1010000010_00000000 = .error .deriveBlenNotZero := by rfl
theorem test_decode_derive_blk : decode 0b01_00_1010_0000_00_1010000010_10100101 = .error .deriveBlkNotZero := by rfl
theorem test_decodeTableWord_enc : decodeTableWord 32 0x8A8282A5 = some (.enc 10 8 0x282 0xA5) := by decide
theorem test_decodeTableWord_longer : decodeTableWord 40 0x8A8282A5 = none := by decide
theorem test_encode_example : encode (.enc 10 8 0b1010000010 0b10100101) = 0x8A8282A5 := by decide

/-! ### Internal functions (95_test_vectors.md sections 3.1 to 3.7) -/

theorem test_permute_p8_drops : permute tableP8 0b1100000000 = 0b00000000 := by decide
theorem test_permute_p10_mixed : permute tableP10 0b0101010101 = 0b0010110011 := by decide
theorem test_rotl_wraps : rotl (0b10110 : BitVec 5) 7 = 0b11010 := by decide
theorem test_keySchedule : keySchedule hardwareTables 0b0111111101 = (0x5F, 0xFC) := by decide
theorem test_sbox_s1 : sbox tableS1 0b0100 = 0b10 := by decide
theorem test_fFunction_zero : fFunction hardwareTables 0b0000 0b00000000 = 0b1000 := by decide
theorem test_feistelRound : feistelRound hardwareTables 0b10100101 0b01011010 = 0b10110101 := by decide
theorem test_swapHalves : swapHalves 0b00110100 = 0b01000011 := by decide
theorem test_encrypt_literature : encrypt hardwareTables 0b10010111 0b1010000010 = 0b00111000 := by decide +kernel
theorem test_decrypt_of_plaintext : decrypt hardwareTables 0b10100101 0b1010000010 = 0b01001100 := by decide +kernel

/-! ### Commands (95_test_vectors.md section 3.8) -/

theorem test_derive_step : after 0x4A028200 = some (0xA4, 0x43, 0x00, 0x40) := by decide
theorem test_derive_key_length : after 0x4B000000 = some (0x00, 0x00, 0x00, 0x01) := by decide
theorem test_enc_step : after 0x8A81FDAA = some (0x5F, 0xFC, 0x16, 0xC0) := by decide +kernel
theorem test_enc_both_lengths : after 0x8B900000 = some (0x00, 0x00, 0x00, 0x03) := by decide
theorem test_dec_step : after 0xCA828238 = some (0xA4, 0x43, 0x97, 0xC0) := by decide +kernel
theorem test_dec_block_length : after 0xCA728200 = some (0x00, 0x00, 0x00, 0x02) := by decide
theorem test_illegal_before_lengths : after 0x491282A5 = some (0x00, 0x00, 0x00, 0x10) := by decide
theorem test_illegal_all_zero : after 0x00000000 = some (0x00, 0x00, 0x00, 0x10) := by decide
theorem test_reset_event :
    nextOf { k1 := 0xA4, k2 := 0x43, r := 0xCA, st := 0xC0, pending := [.reset, .command 0x8A8282A5] } =
      some { k1 := 0, k2 := 0, r := 0, st := 0, pending := [.command 0x8A8282A5] } := by decide
theorem test_outputWord : (nextOf (withWord 0x8A8282A5)).map State.outputWord = some 0xC0A443CA := by decide +kernel
theorem test_placed_word_runs : (nextOf (State.reset.withFetchWord 32 0x8A8282A5)).map State.r = some 0xCA := by decide +kernel
theorem test_seqExec : seqExec 0x8A8283A5 = (0xA6, 0x4B, 0x8B, 0xC0) := by decide
theorem test_errorsSeen :
    errorsSeen 2 { State.reset with pending := [.command 0x8A728200, .command 0x49000000] } = 0b00011 := by decide

/-! ### Tables refused and accepted (40_permutation_engine.md R41; 42_feistel_round.md R65) -/

theorem test_build_hardware : buildTables hardwareRawTables = .ok hardwareTables := by rfl
theorem test_build_entry_zero :
    buildTables { hardwareRawTables with p4 := [2, 4, 3, 0] } = .error (.invalidTable "P4") := by rfl
theorem test_build_entry_high :
    buildTables { hardwareRawTables with ep := [4, 1, 2, 3, 2, 3, 5, 1] } = .error (.invalidTable "EP") := by rfl
theorem test_build_cell_high :
    buildTables { hardwareRawTables with s1 := [[0, 1, 2, 4], [2, 0, 1, 3], [3, 0, 1, 0], [2, 1, 0, 3]] } =
      .error (.invalidTable "S1") := by rfl

/-! ### Text (30_encoding.md R37, the table of examples) -/

theorem test_assemble_derive : assembleText "DERIVE 1010000010".toList = .ok 0x4A028200 := by rfl
theorem test_assemble_enc : assembleText "ENC 10100101, 1010000010".toList = .ok 0x8A8282A5 := by rfl
theorem test_assemble_dec : assembleText "DEC 11001010, 1010000010".toList = .ok 0xCA8282CA := by rfl
theorem test_assemble_short_block : assembleText "ENC 1010010, 1010000010".toList = .ok 0x8A728200 := by rfl
theorem test_assemble_both_wrong : assembleText "ENC 101001011, 10100000101".toList = .ok 0x8B900000 := by rfl
theorem test_assemble_bad_character : assembleText "DERIVE 1010000012".toList = .error .invalidBitValue := by rfl
theorem test_assemble_word : assembleText ".word 0x4A0282A5".toList = .ok 0x4A0282A5 := by rfl
theorem test_assemble_unknown : assembleText "NOP".toList = .error .notALine := by rfl
theorem test_disassemble_enc : disassembleText 0x8A8282A5 = "ENC 10100101, 1010000010".toList := by decide
theorem test_disassemble_wrong_length : disassembleText 0x8A728200 = ".word 0x8A728200".toList := by decide

/-! ### Work and time (70_reset_and_hazards.md R109) -/

theorem test_work_fault : (commandCounted hardwareTables (.enc 9 8 0x282 0xA5)).work = {} := by decide
theorem test_kind_illegal : commandKind 0x4A0282A5 = .illegal ∧ commandFaults 0x4A0282A5 = true := by decide

/-! ### Witnesses: states and operands that meet the hypotheses of the statements -/

/-- A state that no reset left, with a reset and two words pending. -/
def busy : State :=
  { k1 := 0xA4, k2 := 0x43, r := 0xCA, st := 0xC0, pending := [.reset, .command 0x8A8282A5, .command 0x49000000] }

theorem witness_ResetEventEffect_reset : busy.pending = .reset :: [.command 0x8A8282A5, .command 0x49000000] := by rfl
theorem witness_ResetEventEffect_command : (withWord 0xFFFFFFFF).pending = .command 0xFFFFFFFF :: [] := by rfl
theorem witness_StepRunsDecodedCommand :
    (withWord 0x8A8282A5).pending = .command 0x8A8282A5 :: [] ∧ decode 0x8A8282A5 = .ok (.enc 10 8 0x282 0xA5) := ⟨rfl, rfl⟩
theorem witness_PlacedWordRunsNext : decode 0xCFF3FFFF =
    .ok (.dec 15 15 0x3FF 0xFF) := by rfl
theorem witness_IdleStepChangesNothing : State.reset.pending = [] := by rfl
theorem witness_EventsTakenInOrder :
    busy.pending = [.reset, .command 0x8A8282A5] ++ [.command 0x49000000] ∧ busy.pending = [] ++ busy.pending := ⟨rfl, rfl⟩
theorem witness_DecoderReadsEachField :
    decode 0x4F03FF00 = .ok (.derive 15 0x3FF) ∧ decode 0x80000000 = .ok (.enc 0 0 0 0) ∧
    decode 0xCFF3FFFF = .ok (.dec 15 15 0x3FF 0xFF) := ⟨rfl, rfl, rfl⟩
theorem witness_OperandsAreFieldsOrIgnored_derive : decode 0x40000100 = .ok (.derive 0 1) := by rfl
theorem witness_OperandsAreFieldsOrIgnored_block :
    decode 0x80020080 = .ok (.enc 0 0 0x200 0x80) ∧ decode 0xC0020080 = .ok (.dec 0 0 0x200 0x80) := ⟨rfl, rfl⟩
theorem witness_OperandsAreFieldsOrIgnored_lengths : (9 ≠ 10 ∧ 11 ≠ 10) ∧ (10 ≠ 10 ∨ 7 ≠ 8) := by decide
theorem witness_LengthsAreComparedOnly_compare : (9 = 10 ↔ 11 = 10) ∧ (10 = 10 ↔ 10 = 10) ∧ (7 = 8 ↔ 9 = 8) := by decide
theorem witness_LengthsAreComparedOnly_long : 15 ≤ (List.replicate 16 true).length ∧ 15 ≤ (List.replicate 15 true).length := by
  decide
theorem witness_DecoderRefusesExactlyIllegalWords :
    decode 0x3FFFFFFF = .error .opReserved ∧ decode 0xFFFFFFFF = .error .z1NotZero ∧
    decode 0x8A8682A5 = .error .z2NotZero ∧ decode 0x4A128200 = .error .deriveBlenNotZero ∧
    decode 0x4A028201 = .error .deriveBlkNotZero := ⟨rfl, rfl, rfl, rfl, rfl⟩
theorem witness_DecodeEncodeAgree : (Instr.derive 15 0x3FF).wellFormed = true ∧ (Instr.enc 0 15 0 0xFF).wellFormed = true ∧
    (Instr.dec 15 0 0x3FF 0).wellFormed = true := by decide
theorem witness_EncodeDecodeAgree : decode 0x4A028200 = .ok (.derive 10 0x282) := by rfl
theorem witness_DeriveCommandEffect :
    (10 = 10 ∧ 9 ≠ 10 ∧ 11 ≠ 10) ∧ (withWord 0x4A128200).pending = .command 0x4A128200 :: [] ∧
    (0x4A128200 : Word).extractLsb' 30 2 = 1 ∧ (0x4A128200 : Word).extractLsb' 20 4 ≠ 0 := by decide
theorem witness_DeriveCommandEffect_completes :
    exec (.derive 10 0x282) busy = .next { busy with k1 := 0xA4, k2 := 0x43, r := 0, st := 0x40 } := by
  rfl
theorem witness_EncCommandEffect :
    (10 = 10 ∧ 8 = 8) ∧ (11 ≠ 10 ∧ 8 = 8) ∧ (10 = 10 ∧ 7 ≠ 8) ∧ (9 ≠ 10 ∧ 9 ≠ 8) ∧
    (withWord 0x9A8282A5).pending = .command 0x9A8282A5 :: [] ∧
    (0x9A8282A5 : Word).extractLsb' 30 2 = 2 ∧ (0x9A8282A5 : Word).extractLsb' 28 2 ≠ 0 := by decide
theorem witness_EncCommandEffect_completes :
    exec (.enc 10 8 0x282 0xA5) busy = .next { busy with k1 := 0xA4, k2 := 0x43, r := 0xCA, st := 0xC0 } :=
  congrArg Host.Outcome.next (by decide +kernel)
theorem witness_DecCommandEffect :
    (10 = 10 ∧ 8 = 8) ∧ (11 ≠ 10 ∧ 8 = 8) ∧ (10 = 10 ∧ 7 ≠ 8) ∧ (9 ≠ 10 ∧ 9 ≠ 8) ∧
    (withWord 0xCA8A82A5).pending = .command 0xCA8A82A5 :: [] ∧
    (0xCA8A82A5 : Word).extractLsb' 30 2 = 3 ∧ (0xCA8A82A5 : Word).extractLsb' 18 2 ≠ 0 := by decide
theorem witness_DecCommandEffect_completes :
    exec (.dec 10 8 0x282 0xCA) busy = .next { busy with k1 := 0xA4, k2 := 0x43, r := 0xA5, st := 0xC0 } :=
  congrArg Host.Outcome.next (by decide +kernel)
theorem witness_CommandFrame : exec (.derive 0 0) busy = .next { busy with k1 := 0, k2 := 0, r := 0, st := 0x01 } := by rfl
theorem witness_IllegalWordFaultsAlone :
    IllegalWord 0x3FFFFFFF ∧ IllegalWord 0x9B900000 ∧ IllegalWord 0x8A8A82A5 ∧ IllegalWord 0x4A128200 ∧
    IllegalWord 0x4A0282A5 ∧ (withWord 0x4A0282A5).pending = .command 0x4A0282A5 :: [] := by
  unfold IllegalWord; decide
theorem witness_ErrorBitsTellEveryError : (withWord 0x8B900000).pending = .command 0x8B900000 :: [] := by rfl
theorem witness_FaultLeavesMaskAndZeros :
    (withWord 0x8B900000).pending = .command 0x8B900000 :: [] ∧
    step (withWord 0x8B900000) = .next { State.reset with st := 0x03 } ∧ ({ State.reset with st := 0x03 } : State).err ≠ 0 :=
  ⟨rfl, rfl, by decide⟩
theorem witness_StatusAfterEveryCommand : (withWord 0x4A028200).pending = .command 0x4A028200 :: [] := by rfl
/-- One word for each row of the table of ST values, at lengths next to the proper ones. -/
theorem witness_StatusAfterEveryCommand_rows :
    decode 0x49000000 = .ok (.derive 9 0) ∧ decode 0x8B800000 = .ok (.enc 11 8 0 0) ∧
    decode 0xCA700000 = .ok (.dec 10 7 0 0) ∧ decode 0x8B900000 = .ok (.enc 11 9 0 0) := ⟨rfl, rfl, rfl, rfl⟩
theorem witness_StatusFieldPlaces_step : (withWord 0xFFFFFFFF).pending = .command 0xFFFFFFFF :: [] := by rfl
theorem witness_StatusFieldPlaces : exec (.enc 0 0 0 0) busy = .next { busy with k1 := 0, k2 := 0, r := 0, st := 0x03 } := by rfl
theorem witness_StepKeepsInvariants : busy.Inv ∧ step busy = .next { State.reset with pending := busy.pending.tail } := by
  refine ⟨?_, rfl⟩
  exact ⟨by decide, by decide, by decide, by decide, fun _ => ⟨0x282, by decide⟩, by decide⟩
theorem witness_AnyEventEstablishesInvariants :
    ({ busy with st := 0xFF } : State).pending = .reset :: busy.pending.tail ∧
    step { busy with st := 0xFF } = .next { State.reset with pending := busy.pending.tail } := ⟨rfl, rfl⟩
theorem witness_OutputsAreFunctionOfWord : (withWord 0xC0000000).pending = .command 0xC0000000 :: [] := by rfl
theorem witness_RepeatedCommandChangesNothing : exec (.dec 0 8 0 0) busy = .next { busy with k1 := 0, k2 := 0, r := 0, st := 0x01 } := by
  rfl
theorem witness_ErrorRecordForgetsNothing_record :
    1 ≤ 2 ∧ Sys2Proof.core.run 1 (withWord 0x49000000) = .next { State.reset with st := 0x01 } ∧
    ({ State.reset with st := 0x01 } : State).err.getLsbD 0 = true ∧ (errorsSeen 2 (withWord 0x49000000)).getLsbD 0 = true ∧
    (errorsSeen 2 (withWord 0x49000000)).getLsbD 1 = false := ⟨by decide, rfl, by decide, by decide, by decide⟩
theorem witness_ErrorRecordForgetsNothing_forgets :
    (withWord 0x4A028200).pending = .command 0x4A028200 :: [] ∧
    ({ busy with st := 0x03, pending := [.command 0x4A028200, .reset] } : State).pending = .command 0x4A028200 :: [.reset] ∧
    decode 0x4A028200 = .ok (.derive 10 0x282) := ⟨rfl, rfl, rfl⟩
theorem witness_MalformedTablesRefused :
    buildTables hardwareRawTables = .ok hardwareTables ∧ exec (.derive 9 0) busy = .next { busy with k1 := 0, k2 := 0, r := 0, st := 0x01 } :=
  ⟨rfl, rfl⟩
theorem witness_KeyScheduleSteps :
    permute hardwareTables.p10 0b1010000010 = 0b1000001100 ∧ (∀ i < 5, el (0b10000 : KeyHalf) i = el (0b1000001100 : MasterKey) i) ∧
    (∀ i < 5, el (0b01100 : KeyHalf) i = el (0b1000001100 : MasterKey) (i + 5)) := by decide
theorem witness_KeyScheduleOneToOne : keySchedule hardwareTables 0x282 = keySchedule hardwareTables 0x282 := by rfl
theorem witness_SBoxSelectsCell :
    (3 : Fin 4).val = 2 * ((0b1101 : Half).getLsbD 3).toNat + ((0b1101 : Half).getLsbD 0).toNat ∧
    (2 : Fin 4).val = 2 * ((0b1101 : Half).getLsbD 2).toNat + ((0b1101 : Half).getLsbD 1).toNat := by decide
theorem witness_RoundSteps :
    (∀ i < 4, el (0b0111 : Half) i = el (0b01110100 : Block) i) ∧ (∀ i < 4, el (0b0100 : Half) i = el (0b01110100 : Block) (i + 4)) ∧
    (∀ i < 8, el (0b10001100 : BitVec 8) i = xor (el (permute hardwareTables.ep 0b0100) i) (el (0b10100100 : Subkey) i)) ∧
    (∀ i < 4, el (0b1000 : Half) i = el (0b10001100 : BitVec 8) i) ∧
    (∀ i < 4, el (0b1100 : Half) i = el (0b10001100 : BitVec 8) (i + 4)) := by decide
theorem witness_CipherSteps :
    keySchedule hardwareTables 0x282 = (0xA4, 0x43) ∧ keySchedule hardwareTables 0b0001100000 = (0x10, 0x10) ∧
    (0x10 : Subkey) = 0x10 := by decide
theorem witness_DecryptUndoesEncrypt : TablesInverse hardwareTables := by decide
theorem witness_EncryptIsBijection : TablesInverse hardwareTables := by decide
theorem witness_MachineMatchesReference : (withWord 0x8A8283A5).pending = .command 0x8A8283A5 :: [] := by rfl
theorem witness_WorkCountsAreFixed :
    instrFaults (.derive 9 0x282) = true ∧ exec (.derive 10 0) busy = .next { busy with k1 := 0, k2 := 0, r := 0, st := 0x40 } :=
  ⟨rfl, rfl⟩
theorem witness_TimeDoesNotDependOnData_legal :
    (0x8A8282A5 : Word).extractLsb' 18 14 = (0x8A800000 : Word).extractLsb' 18 14 ∧
    (IllegalWord 0x8A8282A5 ↔ IllegalWord 0x8A800000) := by unfold IllegalWord; decide
theorem witness_TimeDoesNotDependOnData_illegal :
    (0x4A028201 : Word).extractLsb' 18 14 = (0x4A0000FF : Word).extractLsb' 18 14 ∧
    (IllegalWord 0x4A028201 ↔ IllegalWord 0x4A0000FF) ∧ IllegalWord 0x4A028201 := by unfold IllegalWord; decide
theorem witness_AssemblerFieldsOfStrings :
    "101".toList = [true, false, true].map (fun b => if b then '1' else '0') := by rfl
theorem witness_AssembleDisassembleAgree_mnemonic :
    decode 0x4A000100 = .ok (.derive 10 1) ∧ decode 0x8A820080 = .ok (.enc 10 8 0x200 0x80) ∧
    decode 0xCA800101 = .ok (.dec 10 8 1 1) := ⟨rfl, rfl, rfl⟩
theorem witness_AssembleDisassembleAgree_word :
    ∀ (key : MasterKey) (blk : Block), decode 0x8A728200 ≠ .ok (.derive 10 key) ∧
      decode 0x8A728200 ≠ .ok (.enc 10 8 key blk) ∧ decode 0x8A728200 ≠ .ok (.dec 10 8 key blk) := by
  intro key blk
  rw [show decode 0x8A728200 = .ok (.enc 10 7 0x282 0) from rfl]
  simp
theorem witness_BadCharacterRefused :
    ('2' ≠ '0' ∧ '2' ≠ '1' ∧ '2' ∈ "1012".toList) ∧ exec (.derive 9 0) busy = .next { busy with k1 := 0, k2 := 0, r := 0, st := 0x01 } :=
  ⟨by decide, rfl⟩

end Sys2Proof.Tests
end

section
/-! The state after reset, field by field (10_state.md R18). -/

namespace Sys2Proof.Machine

@[simp] theorem reset_k1 : State.reset.k1 = 0x00 := rfl
@[simp] theorem reset_k2 : State.reset.k2 = 0x00 := rfl
@[simp] theorem reset_r : State.reset.r = 0x00 := rfl
@[simp] theorem reset_st : State.reset.st = 0x00 := rfl
@[simp] theorem reset_pending : State.reset.pending = [] := rfl

/-- The reset value of ST, composed of its fields: no valid output and no error (10_state.md R13). -/
theorem reset_st_eq_statusOf : State.reset.st = statusOf false false 0 := by
  simp [statusOf_fault]

@[simp] theorem reset_rv : State.reset.rv = false := by
  rw [State.rv, reset_st_eq_statusOf, statusOf_rv]

@[simp] theorem reset_kv : State.reset.kv = false := by
  rw [State.kv, reset_st_eq_statusOf, statusOf_kv]

@[simp] theorem reset_err : State.reset.err = 0 := by
  rw [State.err, reset_st_eq_statusOf, statusOf_err]

/-- Settles O1: the registers by the definition of the reset state, the fields of ST from its composition. -/
theorem resetLeavesEveryRegisterZero : Obligations.ResetLeavesEveryRegisterZero :=
  ⟨reset_k1, reset_k2, reset_r, reset_st, reset_rv, reset_kv, reset_err⟩

end Sys2Proof.Machine
end

section
/-! The decoder and the encoder are inverse to each other, the rows of the opcode table by their fields, and the fields of a
word as numbers and as elements (30_encoding.md R30, R31, R33 to R35). -/

namespace Sys2Proof

/-! ### What the decoder accepts -/

/-- A word with OP = 0 is illegal (30_encoding.md R34, case (a)). -/
theorem decode_of_opField_zero {w : Word} (h : opField w = 0) : decode w = .error .opReserved :=
  if_pos h

/-- Each command word carries all that its decoding answers: packed again, the fields give the word back. -/
theorem encode_of_decode {w : Word} {i : Instr} (h : decode w = .ok i) : encode i = w := by
  unfold decode at h
  split_ifs at h with hop0 hz1 hz2 hop1 hblen hblk hop2
  all_goals
    have hw := packWord_fields w (not_not.mp hz1) (not_not.mp hz2)
    injection h with h
    subst h
  · rwa [hop1, not_not.mp hblen, not_not.mp hblk] at hw
  · rwa [hop2] at hw
  · have hop3 : opField w = 3 := by
      generalize opField w = op at hop0 hop1 hop2
      revert op; decide
    rwa [hop3] at hw

/-- What a length field holds is a declarable length. -/
@[simp] theorem lengthDeclarable_toNat (x : BitVec 4) : lengthDeclarable x.toNat = true := by
  revert x; decide

/-- The decoder answers declared lengths that a 4-bit field can hold. -/
theorem wellFormed_of_decode {w : Word} {i : Instr} (h : decode w = .ok i) : i.wellFormed = true := by
  unfold decode at h
  split_ifs at h
  all_goals
    injection h with h
    subst h
    simp [Instr.wellFormed]

/-- A declarable length is what its field reads as. -/
theorem toNat_ofNat_of_lengthDeclarable {n : Nat} (h : lengthDeclarable n = true) : (BitVec.ofNat 4 n).toNat = n := by
  simp only [lengthDeclarable, decide_eq_true_eq] at h
  rw [BitVec.toNat_ofNat, Nat.mod_eq_of_lt (by omega)]

/-- The decoder reads from the word of a well-formed instruction that instruction. -/
theorem decode_encode {i : Instr} (h : i.wellFormed = true) : decode (encode i) = .ok i := by
  cases i with
  | derive klen key => simp [decode, encode, toNat_ofNat_of_lengthDeclarable h]
  | enc klen blen key blk | dec klen blen key blk =>
    obtain ⟨hklen, hblen⟩ := Bool.and_eq_true_iff.mp h
    simp [decode, encode, toNat_ofNat_of_lengthDeclarable hklen, toNat_ofNat_of_lengthDeclarable hblen]

/-- A word decodes to an instruction exactly when it is the word of that instruction and the instruction is well formed. -/
theorem decode_eq_ok_iff {w : Word} {i : Instr} : decode w = .ok i ↔ i.wellFormed = true ∧ encode i = w :=
  ⟨fun h => ⟨wellFormed_of_decode h, encode_of_decode h⟩, fun ⟨h, hw⟩ => hw ▸ decode_encode h⟩

/-! ### The rows of the opcode table -/

/-- A field that lies wholly under the mask is the match value's. -/
theorem extractLsb'_of_and_eq {w mask value : Word} (h : w &&& mask = value) (start len : Nat)
    (hmask : mask.extractLsb' start len = BitVec.allOnes len) :
    w.extractLsb' start len = value.extractLsb' start len := by
  rw [← h, BitVec.extractLsb'_and, hmask, BitVec.and_allOnes]

/-- A word that selects the row of DERIVE is the word of a DERIVE (30_encoding.md R31). -/
theorem encode_derive_of_and_eq {w : Word} (h : w &&& 0xF0FC00FF = 0x40000000) :
    encode (.derive (klenField w).toNat (keyField w)) = w := by
  have hop : opField w = 1 := extractLsb'_of_and_eq h 30 2 rfl
  have hz1 : z1Field w = 0 := extractLsb'_of_and_eq h 28 2 rfl
  have hblen : blenField w = 0 := extractLsb'_of_and_eq h 20 4 rfl
  have hz2 : z2Field w = 0 := extractLsb'_of_and_eq h 18 2 rfl
  have hblk : blkField w = 0 := extractLsb'_of_and_eq h 0 8 rfl
  have hw := packWord_fields w hz1 hz2
  rwa [hop, hblen, hblk] at hw

/-- A word that selects the row of ENC or DEC, whose match values are OP alone, is the packing of OP and of its own operands
(30_encoding.md R31). -/
theorem packWord_of_and_eq {w : Word} {op : BitVec 2} (h : w &&& 0xF00C0000 = packWord op 0 0 0 0) :
    packWord op (klenField w).toNat (blenField w).toNat (keyField w) (blkField w) = w := by
  have hop : opField w = op := (extractLsb'_of_and_eq h 30 2 rfl).trans (opField_packWord ..)
  have hz1 : z1Field w = 0 := (extractLsb'_of_and_eq h 28 2 rfl).trans (z1Field_packWord ..)
  have hz2 : z2Field w = 0 := (extractLsb'_of_and_eq h 18 2 rfl).trans (z2Field_packWord ..)
  rw [← hop, packWord_fields w hz1 hz2]

/-- The row of DERIVE selects exactly the words that decode to a DERIVE. -/
theorem and_deriveMask_eq_iff (w : Word) :
    w &&& 0xF0FC00FF = 0x40000000 ↔ ∃ klen key, decode w = .ok (.derive klen key) := by
  constructor
  · intro h
    exact ⟨_, _, decode_eq_ok_iff.mpr ⟨lengthDeclarable_toNat _, encode_derive_of_and_eq h⟩⟩
  · rintro ⟨klen, key, h⟩
    exact encode_of_decode h ▸ Laws.EncodeMatchesRow.derive klen key

/-- The row of ENC selects exactly the words that decode to an ENC. -/
theorem and_encMask_eq_iff (w : Word) :
    w &&& 0xF00C0000 = 0x80000000 ↔ ∃ klen blen key blk, decode w = .ok (.enc klen blen key blk) := by
  constructor
  · intro h
    have hw : encode (.enc _ _ _ _) = w := packWord_of_and_eq (op := 2) h
    exact ⟨_, _, _, _, decode_eq_ok_iff.mpr ⟨by simp [Instr.wellFormed], hw⟩⟩
  · rintro ⟨klen, blen, key, blk, h⟩
    exact encode_of_decode h ▸ Laws.EncodeMatchesRow.enc klen blen key blk

/-- The row of DEC selects exactly the words that decode to a DEC. -/
theorem and_decMask_eq_iff (w : Word) :
    w &&& 0xF00C0000 = 0xC0000000 ↔ ∃ klen blen key blk, decode w = .ok (.dec klen blen key blk) := by
  constructor
  · intro h
    have hw : encode (.dec _ _ _ _) = w := packWord_of_and_eq (op := 3) h
    exact ⟨_, _, _, _, decode_eq_ok_iff.mpr ⟨by simp [Instr.wellFormed], hw⟩⟩
  · rintro ⟨klen, blen, key, blk, h⟩
    exact encode_of_decode h ▸ Laws.EncodeMatchesRow.dec klen blen key blk

/-- Settles O8: a row is selected exactly by the words of its command, and OP = 0 is refused first. -/
theorem tableRowsSelectCommands : Obligations.TableRowsSelectCommands := fun w =>
  ⟨and_deriveMask_eq_iff w, and_encMask_eq_iff w, and_decMask_eq_iff w, fun h => ⟨_, decode_of_opField_zero h⟩⟩

/-! ### The fields of a word as numbers and as elements -/

theorem opField_toNat (w : Word) : (opField w).toNat = w.toNat / 2 ^ 30 := by
  rw [opField, BitVec.extractLsb'_toNat, Nat.shiftRight_eq_div_pow]
  omega

theorem z1Field_toNat (w : Word) : (z1Field w).toNat = w.toNat / 2 ^ 28 % 4 := by
  rw [z1Field, BitVec.extractLsb'_toNat, Nat.shiftRight_eq_div_pow]

theorem klenField_toNat (w : Word) : (klenField w).toNat = w.toNat / 2 ^ 24 % 16 := by
  rw [klenField, BitVec.extractLsb'_toNat, Nat.shiftRight_eq_div_pow]

theorem blenField_toNat (w : Word) : (blenField w).toNat = w.toNat / 2 ^ 20 % 16 := by
  rw [blenField, BitVec.extractLsb'_toNat, Nat.shiftRight_eq_div_pow]

theorem z2Field_toNat (w : Word) : (z2Field w).toNat = w.toNat / 2 ^ 18 % 4 := by
  rw [z2Field, BitVec.extractLsb'_toNat, Nat.shiftRight_eq_div_pow]

theorem keyField_toNat (w : Word) : (keyField w).toNat = w.toNat / 2 ^ 8 % 1024 := by
  rw [keyField, BitVec.extractLsb'_toNat, Nat.shiftRight_eq_div_pow]

theorem blkField_toNat (w : Word) : (blkField w).toNat = w.toNat % 256 := by
  rw [blkField, BitVec.extractLsb'_toNat, Nat.shiftRight_zero]

/-- Settles O9: a word that decodes is the packing of its operands, and each field of a packing is what was packed. -/
theorem decoderReadsEachField : Obligations.DecoderReadsEachField := by
  intro w i h
  obtain ⟨hwf, rfl⟩ := decode_eq_ok_iff.mp h
  simp only [← opField_toNat, ← z1Field_toNat, ← klenField_toNat, ← blenField_toNat, ← z2Field_toNat, ← keyField_toNat,
    ← blkField_toNat]
  cases i with
  | derive klen key => simp [encode, toNat_ofNat_of_lengthDeclarable hwf]
  | enc klen blen key blk | dec klen blen key blk =>
    obtain ⟨hklen, hblen⟩ := Bool.and_eq_true_iff.mp hwf
    simp [encode, toNat_ofNat_of_lengthDeclarable hklen, toNat_ofNat_of_lengthDeclarable hblen]

end Sys2Proof
end

section
/-! Declared lengths: an operand whose length is wrong is ignored, a length is compared and nothing else, and the assembler
declares a long operand string as 15 (30_encoding.md R32, R33, R37). -/

namespace Sys2Proof.Machine

/-! ### The elements of the data fields -/

theorem el_keyField (w : Word) {j : Nat} (h : j < 10) : el (keyField w) j = w.getLsbD (17 - j) := by
  rw [el_eq_getLsbD _ j h, keyField, BitVec.getLsbD_extractLsb', decide_eq_true (by omega), Bool.true_and]
  congr 1; omega

theorem el_blkField (w : Word) {j : Nat} (h : j < 8) : el (blkField w) j = w.getLsbD (7 - j) := by
  rw [el_eq_getLsbD _ j h, blkField, BitVec.getLsbD_extractLsb', decide_eq_true (by omega), Bool.true_and, Nat.zero_add]

/-- The elements of the key and of the block that a word packs (30_encoding.md R33). -/
theorem el_of_packWord_eq {w : Word} {op : BitVec 2} {klen blen : Nat} {key : MasterKey} {blk : Block}
    (h : packWord op klen blen key blk = w) :
    (∀ j < 10, el key j = w.getLsbD (17 - j)) ∧ (∀ j < 8, el blk j = w.getLsbD (7 - j)) := by
  subst h
  constructor
  · intro j hj
    rw [← el_keyField _ hj, keyField_packWord]
  · intro j hj
    rw [← el_blkField _ hj, blkField_packWord]

/-! ### What a wrong length leaves of a command -/

/-- DERIVE with a wrong key length faults, whatever the key (60_exceptions.md R91). -/
theorem deriveCommand_of_ne (t : Tables) {klen : Nat} (h : klen ≠ 10) (key : MasterKey) (s : State) :
    deriveCommand t klen key s = raiseFault (keyLenErr klen) s :=
  if_pos (mt (keyLenErr_eq_zero klen).mp h)

/-- ENC or DEC with a wrong length faults, whatever the key and the block (60_exceptions.md R96). -/
theorem blockCommand_of_ne (t : Tables) (cipher : Tables → Block → MasterKey → Block) {klen blen : Nat}
    (h : klen ≠ 10 ∨ blen ≠ 8) (key : MasterKey) (blk : Block) (s : State) :
    blockCommand t cipher klen blen key blk s = raiseFault (keyLenErr klen ||| blkLenErr blen) s :=
  if_pos (mt (lengthErr_eq_zero klen blen).mp (by omega))

/-- Settles O10: a word that decodes packs its operands, and a command with a wrong length is its fault alone. -/
theorem operandsAreFieldsOrIgnored : Obligations.OperandsAreFieldsOrIgnored := by
  refine ⟨fun w klen key h => (el_of_packWord_eq (encode_of_decode h)).1, ?_,
    fun s klen blen key key' blk blk' => ⟨?_, ?_⟩⟩
  · rintro w klen blen key blk (h | h)
    · exact el_of_packWord_eq (encode_of_decode h)
    · exact el_of_packWord_eq (encode_of_decode h)
  · intro hk
    simp only [exec, execDerive, deriveCommand_of_ne _ hk]
  · intro hl
    simp only [exec, execEnc, execDec, blockCommand_of_ne _ _ hl, and_self]

/-! ### Lengths are compared and nothing else -/

theorem keyLenErr_congr {klen klen' : Nat} (h : klen = 10 ↔ klen' = 10) : keyLenErr klen = keyLenErr klen' := by
  simp only [keyLenErr, ne_eq, h]

theorem blkLenErr_congr {blen blen' : Nat} (h : blen = 8 ↔ blen' = 8) : blkLenErr blen = blkLenErr blen' := by
  simp only [blkLenErr, ne_eq, h]

theorem deriveCommand_congr (t : Tables) {klen klen' : Nat} (h : klen = 10 ↔ klen' = 10) (key : MasterKey) (s : State) :
    deriveCommand t klen key s = deriveCommand t klen' key s := by
  simp only [deriveCommand, keyLenErr_congr h]

theorem blockCommand_congr (t : Tables) (cipher : Tables → Block → MasterKey → Block) {klen klen' blen blen' : Nat}
    (hk : klen = 10 ↔ klen' = 10) (hb : blen = 8 ↔ blen' = 8) (key : MasterKey) (blk : Block) (s : State) :
    blockCommand t cipher klen blen key blk s = blockCommand t cipher klen' blen' key blk s := by
  simp only [blockCommand, keyLenErr_congr hk, blkLenErr_congr hb]

/-! ### Operand strings -/

/-- The text of a bit string reads as that bit string. -/
theorem bitsOfText_map (bits : List Bool) : bitsOfText (bits.map fun b => if b then '1' else '0') = .ok bits := by
  induction bits with
  | nil => rfl
  | cons b bits ih => cases b <;> simp [bitsOfText, ih, Except.map]

/-- The length field can hold what the assembler declares. -/
@[simp] theorem lengthDeclarable_declaredLength (bits : List Bool) : lengthDeclarable (declaredLength bits) = true := by
  simp [lengthDeclarable, declaredLength]

/-- A string of 15 or more characters is declared as 15 (30_encoding.md R32). -/
theorem declaredLength_of_le {bits : List Bool} (h : 15 ≤ bits.length) : declaredLength bits = 15 :=
  min_eq_right h

/-- The word of a DERIVE line (30_encoding.md R37). -/
theorem assemble_derive_map (key : List Bool) :
    assemble (.derive (key.map fun b => if b then '1' else '0')) =
      .ok (encode (.derive (declaredLength key) (dataField 10 key))) := by
  rw [assemble, bitsOfText_map, Except.map]

/-- The word of an ENC line (30_encoding.md R37). -/
theorem assemble_enc_map (block key : List Bool) :
    assemble (.enc (block.map fun b => if b then '1' else '0') (key.map fun b => if b then '1' else '0')) =
      .ok (encode (.enc (declaredLength key) (declaredLength block) (dataField 10 key) (dataField 8 block))) := by
  rw [assemble, bitsOfText_map, bitsOfText_map, Except.bind, Except.map]

/-- The word of a well-formed instruction, given to the core, runs that instruction. -/
theorem step_offerFirst_encode {i : Instr} (h : i.wellFormed = true) (s : State) :
    step (s.offerFirst (.command (encode i))) = exec i s := by
  rw [step_command (offerFirst_pending s _), issueWord, decode_encode h]
  rfl

/-- Settles O11: a command uses a length for its check alone, and a long operand string is declared as 15, which fails it. -/
theorem lengthsAreComparedOnly : Obligations.LengthsAreComparedOnly := by
  refine ⟨fun s klen klen' blen blen' key blk hk => ⟨?_, fun hb => ⟨?_, ?_⟩⟩, fun s key block hkey hblock => ?_⟩
  · exact congrArg _ (deriveCommand_congr _ hk key s)
  · exact congrArg _ (blockCommand_congr _ _ hk hb key blk s)
  · exact congrArg _ (blockCommand_congr _ _ hk hb key blk s)
  · have hwd := assemble_derive_map key
    have hwe := assemble_enc_map block key
    rw [declaredLength_of_le hkey] at hwd hwe
    rw [declaredLength_of_le hblock] at hwe
    refine ⟨_, _, hwd, hwe, klenField_packWord .., klenField_packWord .., blenField_packWord .., ?_, ?_⟩
    · have hfault := deriveCommand_of_ne hardwareTables (klen := 15) (by decide) (dataField 10 key) s
      exact ⟨_, (step_offerFirst_encode rfl s).trans (congrArg Host.Outcome.next hfault), rfl⟩
    · have hfault := blockCommand_of_ne hardwareTables encrypt (klen := 15) (blen := 15) (by decide) (dataField 10 key)
        (dataField 8 block) s
      exact ⟨_, (step_offerFirst_encode rfl s).trans (congrArg Host.Outcome.next hfault), rfl⟩

end Sys2Proof.Machine
end

section
/-! The permutation engine: the forms of PERMUTE, ROTL as a rotation, and the hardware's tables (40_permutation_engine.md R40
to R49; 42_feistel_round.md R66, R67). -/

namespace Sys2Proof.Machine

/-! ### PERMUTE -/

/-- The vector form of PERMUTE: a bit of the input drives a bit of the result (40_permutation_engine.md R40). -/
theorem getLsbD_permute {n L : Nat} (T : PermTable n L) (x : BitVec n) (i : Fin L) :
    (permute T x).getLsbD (L - 1 - i) = x.getLsbD (n - T.entries[i]) := by
  have hindex : n - 1 - (T.entries[i] - 1) = n - T.entries[i] := by
    have hrange := T.inRange i
    omega
  rw [← el_eq_getLsbD _ i.val i.isLt, el_permute, el_eq_getLsbD _ _ (tableIndex T i).isLt, tableIndex, hindex]

/-- The LUT form of PERMUTE is the vector form with the bits of the result counted from bit 0 (40_permutation_engine.md
R40). -/
theorem getLsbD_permute_lut {n L : Nat} (T : PermTable n L) (x : BitVec n) (j : Fin L) :
    (permute T x).getLsbD j = x.getLsbD (lut T j) := by
  have hj : L - 1 - j.rev = j := by
    rw [Fin.val_rev]
    omega
  rw [← hj, getLsbD_permute, lut]

/-- Settles O35: the sequence form is the definition's, the vector form numbers its elements as bits, the LUT form reverses
that numbering. -/
theorem permuteInItsThreeForms : Obligations.PermuteInItsThreeForms := fun _ _ T x =>
  ⟨el_permute T x, getLsbD_permute T x, getLsbD_permute_lut T x⟩

/-- A table undoes another when every position read through both comes back to itself. -/
theorem permute_permute_of_inverse {n L : Nat} {A : PermTable L n} {B : PermTable n L}
    (h : ∀ i, tableIndex B (tableIndex A i) = i) (x : BitVec n) : permute A (permute B x) = x :=
  eq_of_el fun i hi => by rw [el_permute_permute A B x ⟨i, hi⟩, h]

/-! ### ROTL -/

/-- The sequence form of ROTL with the amount as given (40_permutation_engine.md R42). -/
theorem el_rotl_add {n : Nat} (x : BitVec (n + 1)) (k i : Nat) (h : i < n + 1) :
    el (rotl x k) i = el x ((i + k) % (n + 1)) := by
  rw [el_rotl x k i h, Nat.add_mod_mod]

/-- ROTL is the library's rotation to the left. -/
theorem rotl_eq_rotateLeft {n : Nat} (x : BitVec (n + 1)) (k : Nat) : rotl x k = x.rotateLeft k :=
  eq_of_el fun i h => by
    rw [el_rotl_add x k i h, el, el, BitVec.getMsbD_rotateLeft, decide_eq_true h, Bool.true_and, Nat.add_comm k i]

/-- The amount of a ROTL counts modulo the length (40_permutation_engine.md R42). -/
theorem rotl_mod {n : Nat} (x : BitVec (n + 1)) (k : Nat) : rotl x (k % (n + 1)) = rotl x k := by
  simp only [rotl, Nat.mod_mod]

@[simp] theorem rotl_zero {n : Nat} (x : BitVec (n + 1)) : rotl x 0 = x :=
  eq_of_el fun i h => by rw [el_rotl_add x 0 i h, Nat.add_zero i, Nat.mod_eq_of_lt h]

@[simp] theorem rotl_length {n : Nat} (x : BitVec (n + 1)) : rotl x (n + 1) = x := by
  rw [← rotl_mod, Nat.mod_self, rotl_zero]

/-- Settles O36: element by element, ROTL is the rotation to the left by the amount modulo the length. -/
theorem rotlRotatesLeft : Obligations.RotlRotatesLeft := fun _ x k =>
  ⟨el_rotl_add x k, rotl_eq_rotateLeft x k, (rotl_mod x k).symm, rotl_zero x, rotl_length x⟩

/-! ### The hardware's tables -/

/-- Settles O32: the lists are the definitions', and the LUT lists and the examples are computed from them. -/
theorem tablesAsTheSpecLists : Obligations.TablesAsTheSpecLists :=
  ⟨rfl, by decide, by decide, -- P10
    rfl, by decide, by decide, -- P8
    rfl, by decide, by decide, -- IP
    rfl, by decide, by decide, by decide, -- IPINV
    rfl, by decide, by decide, by decide, -- EP
    rfl, by decide, by decide, by decide, -- P4
    rfl, rfl, rfl, rfl, rfl, -- S0
    rfl, rfl, rfl, rfl, rfl⟩ -- S1

/-- The hardware's tables have the shapes that 40_permutation_engine.md R49 lists. -/
theorem hardwareTables_shaped : TablesShaped hardwareTables := by decide

/-- IP and IPINV of the hardware are inverse to each other (40_permutation_engine.md R46). -/
theorem hardwareTables_inverse : TablesInverse hardwareTables := by
  obtain ⟨-, -, -, -, -, -, hinverse⟩ := hardwareTables_shaped
  exact hinverse

/-- Settles O33: the shapes by counting, and IPINV undoes IP because each position comes back to itself. -/
theorem tablesHaveTheirShapes : Obligations.TablesHaveTheirShapes :=
  ⟨hardwareTables_shaped, permute_permute_of_inverse hardwareTables_inverse.1⟩

end Sys2Proof.Machine
end

section
/-! The key schedule: its steps and the keys of equal elements (41_key_schedule.md R50 to R54). -/

namespace Sys2Proof.Machine

/-! ### The steps of KEYSCHED -/

/-- Rotations of one sequence add up (41_key_schedule.md R54: one position and two more are three in all). -/
theorem rotl_rotl {n : Nat} (x : BitVec (n + 1)) (j k : Nat) : rotl (rotl x j) k = rotl x (j + k) :=
  eq_of_el fun i h => by
    rw [el_rotl_add _ k i h, el_rotl_add x j _ (Nat.mod_lt _ n.succ_pos), el_rotl_add x (j + k) i h, Nat.mod_add_mod,
      Nat.add_right_comm, Nat.add_assoc]

/-- The left half of a key is known by its elements (41_key_schedule.md R52). -/
theorem keyLeft_eq_of_el {p : MasterKey} {l : KeyHalf} (h : ∀ i < 5, el l i = el p i) : keyLeft p = l :=
  eq_of_el fun i hi => by rw [el_keyLeft p i hi, h i hi]

/-- The right half of a key is known by its elements (41_key_schedule.md R52). -/
theorem keyRight_eq_of_el {p : MasterKey} {r : KeyHalf} (h : ∀ i < 5, el r i = el p (i + 5)) : keyRight p = r :=
  eq_of_el fun i hi => by rw [el_keyRight p i hi, h i hi]

/-- K1 is P8 of the halves of the permuted key, rotated by one (41_key_schedule.md R53). -/
theorem keySchedule_fst (t : Tables) (k : MasterKey) :
    (keySchedule t k).1 =
      permute t.p8 (rotl (keyLeft (permute t.p10 k)) 1 ++ rotl (keyRight (permute t.p10 k)) 1) := rfl

/-- K2 is P8 of the halves of the permuted key, rotated by three in all (41_key_schedule.md R54; 90_conflicts.md C1). -/
theorem keySchedule_snd (t : Tables) (k : MasterKey) :
    (keySchedule t k).2 =
      permute t.p8 (rotl (keyLeft (permute t.p10 k)) 3 ++ rotl (keyRight (permute t.p10 k)) 3) := by
  simp only [keySchedule, rotl_rotl]

/-! ### Keys of equal elements: every stage only moves bits (41_key_schedule.md R50, corner cases) -/

/-- Every element of the sequence is `b`. -/
abbrev AllElements (b : Bool) {n : Nat} (x : BitVec n) : Prop := ∀ i < n, el x i = b

theorem AllElements.eq {b : Bool} {n : Nat} {x y : BitVec n} (hx : AllElements b x) (hy : AllElements b y) : x = y :=
  eq_of_el fun i h => (hx i h).trans (hy i h).symm

theorem AllElements.permute {b : Bool} {n L : Nat} {x : BitVec n} (hx : AllElements b x) (T : PermTable n L) :
    AllElements b (permute T x) := fun i h =>
  (el_permute T x ⟨i, h⟩).trans (hx _ (tableIndex T ⟨i, h⟩).isLt)

theorem AllElements.rotl {b : Bool} {n : Nat} {x : BitVec (n + 1)} (hx : AllElements b x) (k : Nat) :
    AllElements b (rotl x k) := fun i h =>
  (el_rotl_add x k i h).trans (hx _ (Nat.mod_lt _ n.succ_pos))

theorem AllElements.append {b : Bool} {m n : Nat} {x : BitVec m} {y : BitVec n} (hx : AllElements b x)
    (hy : AllElements b y) : AllElements b (x ++ y) := fun i h => by
  rw [el_append]
  split
  case isTrue hi => exact hx i hi
  case isFalse hi => exact hy (i - m) (by omega)

theorem AllElements.keyLeft {b : Bool} {p : MasterKey} (hp : AllElements b p) : AllElements b (keyLeft p) := fun i h =>
  (el_keyLeft p i h).trans (hp i (by omega))

theorem AllElements.keyRight {b : Bool} {p : MasterKey} (hp : AllElements b p) : AllElements b (keyRight p) := fun i h =>
  (el_keyRight p i h).trans (hp (i + 5) (by omega))

/-- A key whose elements are all equal gives two subkeys of that same element. -/
theorem keySchedule_of_allElements (t : Tables) {b : Bool} {k : MasterKey} {sk : Subkey} (hk : AllElements b k)
    (hsk : AllElements b sk) : keySchedule t k = (sk, sk) := by
  have hp := hk.permute t.p10
  refine Prod.ext ?_ ?_
  · rw [keySchedule_fst]
    exact (((hp.keyLeft.rotl 1).append (hp.keyRight.rotl 1)).permute t.p8).eq hsk
  · rw [keySchedule_snd]
    exact (((hp.keyLeft.rotl 3).append (hp.keyRight.rotl 3)).permute t.p8).eq hsk

/-- The document's known vector (41_key_schedule.md R50). -/
theorem keySchedule_known_vector : keySchedule hardwareTables 0b1010000010 = (0b10100100, 0b01000011) := by decide

/-- Settles O37: the halves are those the elements name, rotations add up, and keys of equal elements stay so. -/
theorem keyScheduleSteps : Obligations.KeyScheduleSteps := by
  refine ⟨?_, fun t => ⟨?_, ?_⟩, keySchedule_known_vector⟩
  · rintro t k p l0 r0 rfl hl hr
    rw [rotl_rotl, rotl_rotl, keySchedule_fst, keySchedule_snd, keyLeft_eq_of_el hl, keyRight_eq_of_el hr]
    exact ⟨rfl, rfl, rfl⟩
  · exact keySchedule_of_allElements t (b := false) (by decide) (by decide)
  · exact keySchedule_of_allElements t (b := true) (by decide) (by decide)

end Sys2Proof.Machine
end

section
/-! The DERIVE command, and what a fault and an illegal word leave (41_key_schedule.md R56; 60_exceptions.md R91, R95, R97). -/

namespace Sys2Proof.Machine

/-! ### Faults and illegal words -/

/-- The state a fault leaves: zeros and the mask (60_exceptions.md R97). -/
theorem raiseFault_eq (m : ErrMask) (s : State) :
    raiseFault m s = { k1 := 0x00, k2 := 0x00, r := 0x00, st := m.setWidth 8, pending := s.pending } := by
  rw [raiseFault, writeAll_eq, statusOf_fault]

/-- The cases of 30_encoding.md R34 by the decoder's fields. -/
theorem illegalWord_iff_fields (w : Word) :
    IllegalWord w ↔ opField w = 0 ∨ z1Field w ≠ 0 ∨ z2Field w ≠ 0 ∨
      (opField w = 1 ∧ (blenField w ≠ 0 ∨ blkField w ≠ 0)) := Iff.rfl

/-- No instruction's word is illegal. -/
theorem not_illegalWord_encode (i : Instr) : ¬ IllegalWord (encode i) := by
  rw [illegalWord_iff_fields]
  cases i <;> simp [encode]

/-- The decoder refuses every illegal word (30_encoding.md R34). -/
theorem decode_of_illegalWord {w : Word} (h : IllegalWord w) : ∃ why, decode w = .error why := by
  cases hd : decode w with
  | error why => exact ⟨why, rfl⟩
  | ok i => exact absurd (encode_of_decode hd ▸ h) (not_illegalWord_encode i)

/-- An illegal word faults with EILLEGAL, whatever makes it illegal (60_exceptions.md R95). -/
theorem issueWord_of_illegalWord {w : Word} (h : IllegalWord w) (s : State) :
    issueWord w s = .next (raiseFault eIllegal s) := by
  obtain ⟨why, hd⟩ := decode_of_illegalWord h
  rw [issueWord, hd]
  rfl

/-- A step with an illegal word at the port leaves zeros and EILLEGAL alone (60_exceptions.md R95, R97). -/
theorem step_of_illegalWord {s : State} {w : Word} {es : List Event} (hp : s.pending = .command w :: es)
    (h : IllegalWord w) :
    step s = .next { k1 := 0x00, k2 := 0x00, r := 0x00, st := 0x10, pending := es } := by
  rw [step_command hp, issueWord_of_illegalWord h, raiseFault_eq]
  rfl

/-- A DERIVE word with a reserved field or the block's fields not 0 is illegal (41_key_schedule.md R56). -/
theorem illegalWord_of_derive {w : Word} (hop : w.extractLsb' 30 2 = 1)
    (h : w.extractLsb' 28 2 ≠ 0 ∨ w.extractLsb' 18 2 ≠ 0 ∨ w.extractLsb' 20 4 ≠ 0 ∨ w.extractLsb' 0 8 ≠ 0) :
    IllegalWord w :=
  .inr (h.imp_right (Or.imp_right fun hblock => ⟨hop, hblock⟩))

/-! ### The DERIVE command -/

/-- The mask of a key length that is not 10 (60_exceptions.md R91). -/
theorem keyLenErr_of_ne {klen : Nat} (h : klen ≠ 10) : keyLenErr klen = eKeyLen := if_pos h

/-- DERIVE with a key of 10 bits shows its subkeys (41_key_schedule.md R56). -/
theorem deriveCommand_ten (t : Tables) (key : MasterKey) (s : State) :
    deriveCommand t 10 key s = showSubkeys (keySchedule t key) s := rfl

/-- The state that DERIVE without fault leaves: R is zero and ST.KV alone is set (41_key_schedule.md R56). -/
theorem exec_derive_ten (key : MasterKey) (s : State) :
    exec (.derive 10 key) s = .next
      { k1 := (keySchedule hardwareTables key).1, k2 := (keySchedule hardwareTables key).2, r := 0x00, st := 0x40
        pending := s.pending } :=
  congrArg Host.Outcome.next (deriveCommand_ten hardwareTables key s)

/-- The state that DERIVE with a key length other than 10 leaves (41_key_schedule.md R56). -/
theorem exec_derive_of_ne {klen : Nat} (h : klen ≠ 10) (key : MasterKey) (s : State) :
    exec (.derive klen key) s = .next { k1 := 0x00, k2 := 0x00, r := 0x00, st := 0x01, pending := s.pending } := by
  rw [exec, execDerive, deriveCommand_of_ne _ h, keyLenErr_of_ne h, raiseFault_eq]
  rfl

/-- The word of the first example of 41_key_schedule.md R56. -/
theorem encode_derive_example : encode (.derive 10 0b1010000010) = 0x4A028200 := by decide

/-- The word of the second example of 41_key_schedule.md R56, a key of 9 bits. -/
theorem encode_derive_short_example : encode (.derive 9 0) = 0x49000000 := by decide

/-- Settles O16: the two outcomes of the length check, the illegal DERIVE words, and the examples as the words of two
instructions. -/
theorem deriveCommandEffect : Obligations.DeriveCommandEffect := by
  refine ⟨fun klen key s => ⟨?_, fun h => exec_derive_of_ne h key s⟩, ?_, fun s => ⟨?_, ?_⟩⟩
  · rintro rfl
    exact exec_derive_ten key s
  · intro s w es hp hop h
    exact step_of_illegalWord hp (illegalWord_of_derive hop h)
  · rw [← encode_derive_example, step_offerFirst_encode rfl, exec_derive_ten, keySchedule_known_vector]
  · rw [← encode_derive_short_example, step_offerFirst_encode rfl, exec_derive_of_ne (by decide)]

end Sys2Proof.Machine
end

section
/-! The Feistel round: SBOX by the bits of its group, and the round's steps by elements (42_feistel_round.md R60 to R70). -/

namespace Sys2Proof.Machine

/-! ### SBOX -/

/-- The row by the outer bits of the group (42_feistel_round.md R65). -/
theorem sboxRow_val (g : Half) : (sboxRow g).val = 2 * (g.getLsbD 3).toNat + (g.getLsbD 0).toNat := by
  rw [sboxRow, el_eq_getLsbD g 0 (by decide), el_eq_getLsbD g 3 (by decide), selector]

/-- The column by the inner bits of the group (42_feistel_round.md R65). -/
theorem sboxCol_val (g : Half) : (sboxCol g).val = 2 * (g.getLsbD 2).toNat + (g.getLsbD 1).toNat := by
  rw [sboxCol, el_eq_getLsbD g 1 (by decide), el_eq_getLsbD g 2 (by decide), selector]

/-- The test for 1 gives back a number that is a bit. -/
theorem toNat_beq_one {n : Nat} (h : n < 2) : (n == 1).toNat = n := by
  interval_cases n <;> rfl

/-- The first element of a pair is the high bit of the cell (42_feistel_round.md R68). -/
theorem el_sbox_zero (S : SBox) (g : Half) : (el (sbox S g) 0).toNat = (sboxCell S g).val / 2 := by
  rw [sbox, el_ofElements _ 0 (by decide)]
  exact toNat_beq_one (by omega)

/-- The second element of a pair is the low bit of the cell (42_feistel_round.md R68). -/
theorem el_sbox_one (S : SBox) (g : Half) : (el (sbox S g) 1).toNat = (sboxCell S g).val % 2 := by
  rw [sbox, el_ofElements _ 1 (by decide)]
  exact toNat_beq_one (by omega)

/-- A pair is the number of its two elements, high bit first. -/
theorem pair_toNat (x : Pair) : x.toNat = 2 * (el x 0).toNat + (el x 1).toNat := by
  revert x; decide

/-- A pair is the value of the cell, written with two bits (42_feistel_round.md R68). -/
theorem sbox_toNat (S : SBox) (g : Half) : (sbox S g).toNat = (sboxCell S g).val := by
  rw [pair_toNat, el_sbox_zero, el_sbox_one, Nat.div_add_mod]

/-- Settles O40: the row and the column are the selectors of the group's bits, and the pair is the cell they select. -/
theorem sBoxSelectsCell : Obligations.SBoxSelectsCell := by
  intro S g row col hrow hcol
  obtain rfl : row = sboxRow g := Fin.ext (hrow.trans (sboxRow_val g).symm)
  obtain rfl : col = sboxCol g := Fin.ext (hcol.trans (sboxCol_val g).symm)
  exact ⟨sbox_toNat S g, el_sbox_zero S g, el_sbox_one S g⟩

/-! ### The steps of the round -/

/-- The left half of a block is known by its elements (42_feistel_round.md R61, R64). -/
theorem leftHalf_eq_of_el {b : Block} {l : Half} (h : ∀ i < 4, el l i = el b i) : leftHalf b = l :=
  eq_of_el fun i hi => by rw [el_leftHalf b i hi, h i hi]

/-- The right half of a block is known by its elements (42_feistel_round.md R61, R64). -/
theorem rightHalf_eq_of_el {b : Block} {r : Half} (h : ∀ i < 4, el r i = el b (i + 4)) : rightHalf b = r :=
  eq_of_el fun i hi => by rw [el_rightHalf b i hi, h i hi]

/-- F as one equation: P4 of the S-box pairs of the two groups (42_feistel_round.md R62 to R69). -/
theorem fFunction_eq (t : Tables) (rt : Half) (sk : Subkey) :
    fFunction t rt sk =
      permute t.p4 (sbox t.s0 (leftHalf (permute t.ep rt ^^^ sk)) ++ sbox t.s1 (rightHalf (permute t.ep rt ^^^ sk))) :=
  rfl

/-- ROUND as one equation on the halves of its block (42_feistel_round.md R70). -/
theorem feistelRound_eq (t : Tables) (b : Block) (sk : Subkey) :
    feistelRound t b sk = (leftHalf b ^^^ fFunction t (rightHalf b) sk) ++ rightHalf b := rfl

/-- Settles O41: each sequence that is given by elements is the one that the round computes. -/
theorem roundSteps : Obligations.RoundSteps := by
  intro t b sk l rt g0 g1 x hl hrt hx hg0 hg1
  have hxor : permute t.ep rt ^^^ sk = x := eq_of_el fun i hi => by rw [el_xor, hx i hi]
  constructor
  · rw [fFunction_eq, hxor, leftHalf_eq_of_el hg0, rightHalf_eq_of_el hg1]
  · rw [feistelRound_eq, leftHalf_eq_of_el hl, rightHalf_eq_of_el hrt]

end Sys2Proof.Machine
end

section
/-! The cipher: the six steps of the driver, its known vector, and the reversed subkey order as its inverse
(43_cipher_driver.md R75 to R78). -/

namespace Sys2Proof.Machine

/-! ### The steps undo themselves -/

/-- A round undoes itself: it keeps the right half, so that F gives the same half twice (42_feistel_round.md R71). -/
@[simp] theorem feistelRound_feistelRound (t : Tables) (b : Block) (sk : Subkey) :
    feistelRound t (feistelRound t b sk) sk = b := by
  simp only [feistelRound_eq, leftHalf_append, rightHalf_append]
  rw [BitVec.xor_assoc, BitVec.xor_self, BitVec.xor_zero, leftHalf_append_rightHalf]

/-- The halves exchanged twice (43_cipher_driver.md R75). -/
@[simp] theorem swapHalves_swapHalves (b : Block) : swapHalves (swapHalves b) = b := by
  simp only [swapHalves, leftHalf_append, rightHalf_append]
  exact leftHalf_append_rightHalf b

/-! ### The driver -/

/-- The driver as one equation (43_cipher_driver.md R76). -/
theorem twoRounds_eq (t : Tables) (first second : Subkey) (x : Block) :
    twoRounds t first second x =
      permute t.ipinv (feistelRound t (swapHalves (feistelRound t (permute t.ip x) first)) second) := rfl

/-- ENCRYPT uses the subkeys in the order of the schedule (43_cipher_driver.md R76). -/
theorem encrypt_eq (t : Tables) (x : Block) (k : MasterKey) :
    encrypt t x k = twoRounds t (keySchedule t k).1 (keySchedule t k).2 x := rfl

/-- DECRYPT uses the subkeys in the other order (43_cipher_driver.md R77). -/
theorem decrypt_eq (t : Tables) (x : Block) (k : MasterKey) :
    decrypt t x k = twoRounds t (keySchedule t k).2 (keySchedule t k).1 x := rfl

/-- The driver undoes the driver with the subkeys in the other order: IP meets IPINV, each round meets the round with its own
subkey, and the swap in the middle meets itself (43_cipher_driver.md R78). -/
theorem twoRounds_twoRounds {t : Tables} (h : TablesInverse t) (first second : Subkey) (x : Block) :
    twoRounds t second first (twoRounds t first second x) = x := by
  obtain ⟨hip, hipinv⟩ := h
  simp only [twoRounds_eq]
  rw [permute_permute_of_inverse hipinv, feistelRound_feistelRound, swapHalves_swapHalves, feistelRound_feistelRound,
    permute_permute_of_inverse hip]

theorem decrypt_encrypt {t : Tables} (h : TablesInverse t) (x : Block) (k : MasterKey) :
    decrypt t (encrypt t x k) k = x := by
  rw [encrypt_eq, decrypt_eq, twoRounds_twoRounds h]

theorem encrypt_decrypt {t : Tables} (h : TablesInverse t) (x : Block) (k : MasterKey) :
    encrypt t (decrypt t x k) k = x := by
  rw [encrypt_eq, decrypt_eq, twoRounds_twoRounds h]

/-- Settles O45: each function is the driver with the subkeys in one order, and the two orders undo each other. -/
theorem decryptUndoesEncrypt : Obligations.DecryptUndoesEncrypt :=
  ⟨fun _ h x k => ⟨decrypt_encrypt h x k, encrypt_decrypt h x k⟩, hardwareTables_inverse⟩

/-! ### The known vector -/

/-- The first round of the known vector, with K1 (42_feistel_round.md R60). -/
theorem feistelRound_known_vector_first : feistelRound hardwareTables 0b01110100 0b10100100 = 0b00110100 := by decide

/-- The second round of the known vector, with K2. -/
theorem feistelRound_known_vector_second : feistelRound hardwareTables 0b01000011 0b01000011 = 0b10010011 := by decide

/-- The document's known vector, step by step through the driver (43_cipher_driver.md R76). -/
theorem encrypt_known_vector : encrypt hardwareTables 0b10100101 0b1010000010 = 0b11001010 := by
  have hip : permute hardwareTables.ip 0b10100101 = 0b01110100 := by decide
  have hswap : swapHalves 0b00110100 = 0b01000011 := by decide
  have hipinv : permute hardwareTables.ipinv 0b10010011 = 0b11001010 := by decide
  rw [encrypt_eq, keySchedule_known_vector, twoRounds_eq, hip, feistelRound_known_vector_first, hswap,
    feistelRound_known_vector_second, hipinv]

/-- The known vector the other way (43_cipher_driver.md R77). -/
theorem decrypt_known_vector : decrypt hardwareTables 0b11001010 0b1010000010 = 0b10100101 := by
  rw [← encrypt_known_vector, decrypt_encrypt hardwareTables_inverse]

/-- Settles O44: both functions are the driver, in one order of the subkeys and in the other. -/
theorem cipherSteps : Obligations.CipherSteps := by
  refine ⟨fun t x k k1 k2 hkeys => ?_, encrypt_known_vector, decrypt_known_vector⟩
  rw [encrypt_eq, decrypt_eq, hkeys]
  refine ⟨twoRounds_eq t k1 k2 x, twoRounds_eq t k2 k1 x, ?_⟩
  rintro rfl
  rfl

end Sys2Proof.Machine
end

section
/-! The ENC and DEC commands: what both leave for each outcome of the two length checks, and the examples
(43_cipher_driver.md R79, R80). -/

namespace Sys2Proof.Machine

/-! ### What ENC and DEC share -/

/-- The state that a command with a result leaves: both valid bits of ST are set (43_cipher_driver.md R79, R80). -/
theorem showResult_eq (keys : Subkey × Subkey) (result : Block) (s : State) :
    showResult keys result s = { k1 := keys.1, k2 := keys.2, r := result, st := 0xC0, pending := s.pending } := rfl

/-- The mask of a block length that is not 8 (60_exceptions.md R92). -/
theorem blkLenErr_of_ne {blen : Nat} (h : blen ≠ 8) : blkLenErr blen = eBlkLen := if_pos h

section
variable (t : Tables) (cipher : Tables → Block → MasterKey → Block) (key : MasterKey) (blk : Block) (s : State)

/-- With proper lengths the subkeys stand in the order of the schedule, whatever the cipher (10_state.md R11). -/
theorem blockCommand_proper :
    blockCommand t cipher 10 8 key blk s =
      { k1 := (keySchedule t key).1, k2 := (keySchedule t key).2, r := cipher t blk key, st := 0xC0
        pending := s.pending } :=
  showResult_eq (keySchedule t key) (cipher t blk key) s

/-- A wrong key length alone. -/
theorem blockCommand_of_klen_ne {klen : Nat} (hk : klen ≠ 10) :
    blockCommand t cipher klen 8 key blk s =
      { k1 := 0x00, k2 := 0x00, r := 0x00, st := 0x01, pending := s.pending } := by
  rw [blockCommand_of_ne t cipher (.inl hk), keyLenErr_of_ne hk, raiseFault_eq]
  rfl

/-- A wrong block length alone. -/
theorem blockCommand_of_blen_ne {blen : Nat} (hb : blen ≠ 8) :
    blockCommand t cipher 10 blen key blk s =
      { k1 := 0x00, k2 := 0x00, r := 0x00, st := 0x02, pending := s.pending } := by
  rw [blockCommand_of_ne t cipher (.inr hb), blkLenErr_of_ne hb, raiseFault_eq]
  rfl

/-- Both lengths wrong: neither error hides the other (60_exceptions.md R96). -/
theorem blockCommand_of_both_ne {klen blen : Nat} (hk : klen ≠ 10) (hb : blen ≠ 8) :
    blockCommand t cipher klen blen key blk s =
      { k1 := 0x00, k2 := 0x00, r := 0x00, st := 0x03, pending := s.pending } := by
  rw [blockCommand_of_ne t cipher (.inl hk), keyLenErr_of_ne hk, blkLenErr_of_ne hb, raiseFault_eq]
  rfl

/-- Everything ENC and DEC can leave, by the outcome of the two length checks (43_cipher_driver.md R79, R80). -/
theorem blockCommand_effect (klen blen : Nat) :
    (klen = 10 ∧ blen = 8 → blockCommand t cipher klen blen key blk s =
      { k1 := (keySchedule t key).1, k2 := (keySchedule t key).2, r := cipher t blk key, st := 0xC0
        pending := s.pending }) ∧
    (klen ≠ 10 ∧ blen = 8 → blockCommand t cipher klen blen key blk s =
      { k1 := 0x00, k2 := 0x00, r := 0x00, st := 0x01, pending := s.pending }) ∧
    (klen = 10 ∧ blen ≠ 8 → blockCommand t cipher klen blen key blk s =
      { k1 := 0x00, k2 := 0x00, r := 0x00, st := 0x02, pending := s.pending }) ∧
    (klen ≠ 10 ∧ blen ≠ 8 → blockCommand t cipher klen blen key blk s =
      { k1 := 0x00, k2 := 0x00, r := 0x00, st := 0x03, pending := s.pending }) := by
  refine ⟨?_, ?_, ?_, fun ⟨hk, hb⟩ => blockCommand_of_both_ne t cipher key blk s hk hb⟩
  · rintro ⟨rfl, rfl⟩
    exact blockCommand_proper t cipher key blk s
  · rintro ⟨hk, rfl⟩
    exact blockCommand_of_klen_ne t cipher key blk s hk
  · rintro ⟨rfl, hb⟩
    exact blockCommand_of_blen_ne t cipher key blk s hb

end

/-- A word with a reserved field that is not 0 is illegal, whatever its OP (30_encoding.md R34, cases (b) and (c)). -/
theorem illegalWord_of_reserved {w : Word} (h : w.extractLsb' 28 2 ≠ 0 ∨ w.extractLsb' 18 2 ≠ 0) : IllegalWord w :=
  .inr (h.imp_right .inl)

/-! ### The ENC command -/

theorem exec_enc (klen blen : Nat) (key : MasterKey) (blk : Block) (s : State) :
    exec (.enc klen blen key blk) s = .next (blockCommand hardwareTables encrypt klen blen key blk s) := rfl

/-- The word of the first example of 43_cipher_driver.md R79. -/
theorem encode_enc_example : encode (.enc 10 8 0b1010000010 0b10100101) = 0x8A8282A5 := by decide

/-- The word of the second example of 43_cipher_driver.md R79, a block of 7 bits. -/
theorem encode_enc_short_example : encode (.enc 10 7 0b1010000010 0) = 0x8A728200 := by decide

/-- Settles O17: the outcomes that ENC shares with DEC, the illegal ENC words, and the examples as the words of two
instructions. -/
theorem encCommandEffect : Obligations.EncCommandEffect := by
  refine ⟨fun klen blen key blk s => ?_, fun s w es hp _ h => step_of_illegalWord hp (illegalWord_of_reserved h),
    fun s => ⟨?_, ?_⟩⟩
  · simpa only [exec_enc, Host.Outcome.next.injEq] using blockCommand_effect hardwareTables encrypt key blk s klen blen
  · rw [← encode_enc_example, step_offerFirst_encode rfl, exec_enc, blockCommand_proper, keySchedule_known_vector,
      encrypt_known_vector]
  · rw [← encode_enc_short_example, step_offerFirst_encode rfl, exec_enc,
      blockCommand_of_blen_ne hardwareTables encrypt _ _ s (by decide)]

/-! ### The DEC command -/

theorem exec_dec (klen blen : Nat) (key : MasterKey) (blk : Block) (s : State) :
    exec (.dec klen blen key blk) s = .next (blockCommand hardwareTables decrypt klen blen key blk s) := rfl

/-- The word of the example of 43_cipher_driver.md R80. -/
theorem encode_dec_example : encode (.dec 10 8 0b1010000010 0b11001010) = 0xCA8282CA := by decide

/-- Settles O18: the outcomes that DEC shares with ENC, the illegal DEC words, and the example as the word of an
instruction. -/
theorem decCommandEffect : Obligations.DecCommandEffect := by
  refine ⟨fun klen blen key blk s => ?_, fun s w es hp _ h => step_of_illegalWord hp (illegalWord_of_reserved h),
    fun s => ?_⟩
  · simpa only [exec_dec, Host.Outcome.next.injEq] using blockCommand_effect hardwareTables decrypt key blk s klen blen
  · rw [← encode_dec_example, step_offerFirst_encode rfl, exec_dec, blockCommand_proper, keySchedule_known_vector,
      decrypt_known_vector]

end Sys2Proof.Machine
end

section
/-! Errors: what every bit of ERR tells after a command word, what a fault leaves, and the operand strings that the assembler
refuses (60_exceptions.md R91 to R93, R95 to R97). -/

namespace Sys2Proof.Machine

/-! ### The status of each outcome -/

@[simp] theorem raiseFault_err (m : ErrMask) (s : State) : (raiseFault m s).err = m :=
  statusOf_err false false m

@[simp] theorem raiseFault_rv (m : ErrMask) (s : State) : (raiseFault m s).rv = false :=
  statusOf_rv false false m

@[simp] theorem raiseFault_kv (m : ErrMask) (s : State) : (raiseFault m s).kv = false :=
  statusOf_kv false false m

@[simp] theorem showSubkeys_err (keys : Subkey × Subkey) (s : State) : (showSubkeys keys s).err = 0 :=
  statusOf_err false true 0

@[simp] theorem showResult_err (keys : Subkey × Subkey) (result : Block) (s : State) :
    (showResult keys result s).err = 0 :=
  statusOf_err true true 0

/-- Settles O20: the step is the fault of every illegal word. -/
theorem illegalWordFaultsAlone : Obligations.IllegalWordFaultsAlone := fun _ _ _ hp h =>
  ⟨_, step_of_illegalWord hp h, rfl, rfl⟩

/-- Settles O22: of the outcomes of a command word only the fault has an error, and it leaves its mask with zeros. -/
theorem faultLeavesMaskAndZeros : Obligations.FaultLeavesMaskAndZeros := by
  intro s t w es hp hstep herr
  obtain ⟨t', ht', hresult⟩ := issueWord_result w { s with pending := es }
  obtain rfl : t' = t := by
    rwa [step_command hp, ht', Host.Outcome.next.injEq] at hstep
  cases hresult with
  | fault m _ => exact ⟨by rw [raiseFault_err, raiseFault_eq], raiseFault_rv .., raiseFault_kv ..⟩
  | subkeys key => exact absurd (showSubkeys_err ..) herr
  | result key x => exact absurd (showResult_err ..) herr

/-! ### The error mask of a legal command -/

/-- The errors of a legal command: its length checks, each on its own (60_exceptions.md R91, R92, R96). -/
def lengthErrs : Instr → ErrMask
  | .derive klen _ => keyLenErr klen
  | .enc klen blen _ _ | .dec klen blen _ _ => keyLenErr klen ||| blkLenErr blen

theorem deriveCommand_err (t : Tables) (klen : Nat) (key : MasterKey) (s : State) :
    (deriveCommand t klen key s).err = keyLenErr klen := by
  by_cases h : klen = 10
  · rw [h, deriveCommand_ten, showSubkeys_err, (keyLenErr_eq_zero 10).mpr rfl]
  · rw [deriveCommand_of_ne t h, raiseFault_err]

theorem blockCommand_err (t : Tables) (cipher : Tables → Block → MasterKey → Block) (klen blen : Nat) (key : MasterKey)
    (blk : Block) (s : State) :
    (blockCommand t cipher klen blen key blk s).err = keyLenErr klen ||| blkLenErr blen := by
  by_cases h : klen = 10 ∧ blen = 8
  · obtain ⟨rfl, rfl⟩ := h
    exact showResult_err ..
  · rw [blockCommand_of_ne t cipher (by omega), raiseFault_err]

/-- A legal command leaves in ERR its length errors and no other. -/
theorem exec_err (i : Instr) (s : State) : ∃ t, exec i s = .next t ∧ t.err = lengthErrs i := by
  cases i with
  | derive klen key => exact ⟨_, rfl, deriveCommand_err ..⟩
  | enc klen blen key blk => exact ⟨_, rfl, blockCommand_err ..⟩
  | dec klen blen key blk => exact ⟨_, rfl, blockCommand_err ..⟩

/-! ### The bits of the mask -/

/-- The key length check raises bit 0 and no other. -/
theorem getLsbD_keyLenErr (klen j : Nat) : (keyLenErr klen).getLsbD j = (decide (klen ≠ 10) && decide (j = 0)) := by
  by_cases h : klen = 10
  · simp [keyLenErr, h]
  · simp [keyLenErr_of_ne h, h, eKeyLen]

/-- The block length check raises bit 1 and no other. -/
theorem getLsbD_blkLenErr (blen j : Nat) : (blkLenErr blen).getLsbD j = (decide (blen ≠ 8) && decide (j = 1)) := by
  by_cases h : blen = 8
  · simp [blkLenErr, h]
  · simp [blkLenErr_of_ne h, h, show eBlkLen = BitVec.twoPow 5 1 from rfl, BitVec.getLsbD_twoPow, eq_comm]

/-- No length check raises a bit above bit 1 (60_exceptions.md R93 to R95). -/
theorem getLsbD_lengthErrs_of_ge (i : Instr) {j : Nat} (h : 2 ≤ j) : (lengthErrs i).getLsbD j = false := by
  have h0 : j ≠ 0 := by omega
  have h1 : j ≠ 1 := by omega
  cases i <;> simp [lengthErrs, getLsbD_keyLenErr, getLsbD_blkLenErr, h0, h1]

/-- A declared length fits its field, so the field compares as the length does (30_encoding.md R32). -/
theorem ofNat_eq_iff_of_lengthDeclarable {m n : Nat} (hm : lengthDeclarable m = true) (hn : lengthDeclarable n = true) :
    BitVec.ofNat 4 m = BitVec.ofNat 4 n ↔ m = n := by
  rw [← BitVec.toNat_inj, toNat_ofNat_of_lengthDeclarable hm, toNat_ofNat_of_lengthDeclarable hn]

/-- The two length errors by the fields of the word. -/
theorem getLsbD_lengthErrs_of_decode {w : Word} {i : Instr} (h : decode w = .ok i) :
    ((lengthErrs i).getLsbD 0 = true ↔ klenField w ≠ 10) ∧
    ((lengthErrs i).getLsbD 1 = true ↔ opField w ≠ 1 ∧ blenField w ≠ 8) := by
  obtain ⟨hwf, rfl⟩ := decode_eq_ok_iff.mp h
  cases i with
  | derive klen key =>
    have hklen := ofNat_eq_iff_of_lengthDeclarable (n := 10) hwf rfl
    simp only [lengthErrs, getLsbD_keyLenErr]
    simp [encode, hklen]
  | enc klen blen key blk | dec klen blen key blk =>
    obtain ⟨hk, hb⟩ := Bool.and_eq_true_iff.mp hwf
    have hklen := ofNat_eq_iff_of_lengthDeclarable (n := 10) hk rfl
    have hblen := ofNat_eq_iff_of_lengthDeclarable (n := 8) hb rfl
    simp only [lengthErrs, BitVec.getLsbD_or, getLsbD_keyLenErr, getLsbD_blkLenErr]
    simp [encode, hklen, hblen]

/-! ### Every word -/

/-- The decoder refuses illegal words only (30_encoding.md R34). -/
theorem illegalWord_of_decode_eq_error {w : Word} {why : DecodeError} (h : decode w = .error why) : IllegalWord w := by
  rw [illegalWord_iff_fields]
  unfold decode at h
  split_ifs at h with hop hz1 hz2 hop1 hblen hblk
  · exact .inl hop
  · exact .inr (.inl hz1)
  · exact .inr (.inr (.inl hz2))
  · exact .inr (.inr (.inr ⟨hop1, .inl hblen⟩))
  · exact .inr (.inr (.inr ⟨hop1, .inr hblk⟩))

/-- The words that decode are the legal ones. -/
theorem decode_of_not_illegalWord {w : Word} (h : ¬ IllegalWord w) : ∃ i, decode w = .ok i := by
  cases hd : decode w with
  | ok i => exact ⟨i, rfl⟩
  | error why => exact absurd (illegalWord_of_decode_eq_error hd) h

/-- A legal word runs the command it decodes to (30_encoding.md R35). -/
theorem issueWord_of_decode {w : Word} {i : Instr} (h : decode w = .ok i) (s : State) : issueWord w s = exec i s := by
  simp only [issueWord, h]

/-- Settles O21: an illegal word leaves EILLEGAL alone, a legal one its length errors, which the fields of the word tell. -/
theorem errorBitsTellEveryError : Obligations.ErrorBitsTellEveryError := by
  intro s w es hp
  by_cases hw : IllegalWord w
  · refine ⟨_, (step_command hp).trans (issueWord_of_illegalWord hw _), ?_⟩
    simp [hw, eIllegal]
  · obtain ⟨i, hd⟩ := decode_of_not_illegalWord hw
    obtain ⟨t, ht, herr⟩ := exec_err i { s with pending := es }
    obtain ⟨hkey, hblk⟩ := getLsbD_lengthErrs_of_decode hd
    refine ⟨t, by rw [step_command hp, issueWord_of_decode hd, ht], ?_⟩
    rw [herr, getLsbD_lengthErrs_of_ge i (by decide)]
    exact ⟨by simp [hw], hkey.trans (and_iff_right hw).symm, hblk.trans (and_iff_right hw).symm,
      getLsbD_lengthErrs_of_ge i le_rfl, getLsbD_lengthErrs_of_ge i (by decide)⟩

/-! ### Operand strings that are refused -/

/-- What an operand string reads as: its elements when all its characters are 0 or 1, else one refusal. -/
theorem bitsOfText_eq (cs : List Char) :
    bitsOfText cs = if ∀ c ∈ cs, c = '0' ∨ c = '1' then .ok (cs.map (· == '1')) else .error .invalidBitValue := by
  induction cs with
  | nil => simp [bitsOfText]
  | cons c cs ih =>
    rw [bitsOfText, ih]
    by_cases h0 : c = '0'
    · subst h0
      split_ifs <;> simp_all [Except.map]
    · by_cases h1 : c = '1'
      · subst h1
        split_ifs <;> simp_all [Except.map]
      · simp [h0, h1]

/-- A character other than 0 and 1 is refused (60_exceptions.md R93). -/
theorem bitsOfText_of_mem {cs : List Char} {c : Char} (h0 : c ≠ '0') (h1 : c ≠ '1') (h : c ∈ cs) :
    bitsOfText cs = .error .invalidBitValue := by
  rw [bitsOfText_eq, if_neg fun hall => (hall c h).elim h0 h1]

/-- Of two operand strings a bad character in either is refused, whatever the other holds. -/
theorem bitsOfText_bind_map_of_mem {key block : List Char} {c : Char} (h0 : c ≠ '0') (h1 : c ≠ '1')
    (h : c ∈ key ∨ c ∈ block) (word : List Bool → List Bool → Word) :
    ((bitsOfText block).bind fun b => (bitsOfText key).map (word b)) = .error .invalidBitValue := by
  rcases h with hkey | hblock
  · rw [bitsOfText_of_mem h0 h1 hkey, bitsOfText_eq]
    split_ifs <;> rfl
  · rw [bitsOfText_of_mem h0 h1 hblock]
    rfl

/-- Settles O53: every line form reads its operands with one function, and no length check raises EBITVAL. -/
theorem badCharacterRefused : Obligations.BadCharacterRefused := by
  refine ⟨fun key block c h0 h1 => ⟨fun hkey => ?_, fun h => ⟨?_, ?_⟩⟩, fun i s t hexec => ?_⟩
  · rw [assemble, bitsOfText_of_mem h0 h1 hkey]
    rfl
  · exact bitsOfText_bind_map_of_mem h0 h1 h _
  · exact bitsOfText_bind_map_of_mem h0 h1 h _
  · obtain ⟨t', ht', herr⟩ := exec_err i s
    obtain rfl : t' = t := by rwa [ht', Host.Outcome.next.injEq] at hexec
    rw [herr, getLsbD_lengthErrs_of_ge i le_rfl]

end Sys2Proof.Machine
end

section
/-! The reset event and the state before a command: no command shows ST = 0x00, and a command reads no register, so a
core that was never reset answers as one that was (70_reset_and_hazards.md R105; 10_state.md R19). -/

namespace Sys2Proof.Machine

/-! ### The status after a command is not the reset value -/

/-- With KV or an error set, ST is not the reset value (10_state.md R13). -/
theorem statusOf_ne_zero (rv : Bool) {kv : Bool} {err : ErrMask} (h : kv = true ∨ err ≠ 0) :
    statusOf rv kv err ≠ 0x00 := by
  revert rv kv err; decide

/-- A fault shows a mask that is not 0, and each other result shows KV = 1. -/
theorem EventResult.st_ne_zero {s t : State} (h : EventResult s t) : t.st ≠ 0x00 := by
  cases h with
  | fault m hm =>
    have hm0 : m ≠ 0 := by
      rintro rfl
      exact absurd hm (by decide)
    exact statusOf_ne_zero false (.inr hm0)
  | subkeys key => exact statusOf_ne_zero false (.inl rfl)
  | result key x => exact statusOf_ne_zero true (.inl rfl)

/-! ### A command keeps the pending events and reads no register -/

section
variable {s s' : State} (h : s.pending = s'.pending)
include h

theorem deriveCommand_eq_of_pending_eq (t : Tables) (klen : Nat) (key : MasterKey) :
    deriveCommand t klen key s = deriveCommand t klen key s' := by
  simp only [deriveCommand]
  split
  · exact writeAll_congr (h := h) ..
  · exact writeAll_congr (h := h) ..

theorem blockCommand_eq_of_pending_eq (t : Tables) (cipher : Tables → Block → MasterKey → Block) (klen blen : Nat)
    (key : MasterKey) (blk : Block) :
    blockCommand t cipher klen blen key blk s = blockCommand t cipher klen blen key blk s' := by
  simp only [blockCommand]
  split
  · exact writeAll_congr (h := h) ..
  · exact writeAll_congr (h := h) ..

theorem exec_eq_of_pending_eq (i : Instr) : exec i s = exec i s' := by
  cases i with
  | derive klen key => exact congrArg Host.Outcome.next (deriveCommand_eq_of_pending_eq h ..)
  | enc klen blen key blk => exact congrArg Host.Outcome.next (blockCommand_eq_of_pending_eq h ..)
  | dec klen blen key blk => exact congrArg Host.Outcome.next (blockCommand_eq_of_pending_eq h ..)

/-- Legal or not, a command word is answered from the word and the pending events alone. -/
theorem issueWord_eq_of_pending_eq (w : Word) : issueWord w s = issueWord w s' := by
  unfold issueWord
  split
  · exact exec_eq_of_pending_eq h _
  · exact congrArg Host.Outcome.next (writeAll_congr (h := h) ..)

end

/-- Settles O2: the reset step writes the values the reset state has, each result of a command word has a status other than
0x00, and that result does not depend on the registers before it. -/
theorem resetEventEffect : Obligations.ResetEventEffect := by
  refine ⟨fun s es hp => step_reset hp, rfl, fun s w es hp => ⟨?_, ?_⟩⟩
  · obtain ⟨t, ht, hresult⟩ := issueWord_result w { s with pending := es }
    exact ⟨t, (step_command hp).trans ht, hresult.st_ne_zero⟩
  · have hreset : ({ State.reset with pending := s.pending } : State).pending = .command w :: es := hp
    rw [step_command hp, step_command hreset]
    exact issueWord_eq_of_pending_eq rfl w

end Sys2Proof.Machine
end

section
/-! Words and instructions: the decoder and the encoder as each other's inverse, the refusals of the decoder, and the words
of the spec's examples (30_encoding.md R30, R31, R34, section 6). -/

namespace Sys2Proof.Machine

/-- Settles O13: each field of a packed word reads back what was packed. -/
theorem decodeEncodeAgree : Obligations.DecodeEncodeAgree := fun _ h => decode_encode h

/-- Settles O14: a word that decodes is the packing of its operands, which the fields can hold. -/
theorem encodeDecodeAgree : Obligations.EncodeDecodeAgree := fun _ _ h => decode_eq_ok_iff.mp h

/-- The words that decode are exactly the legal ones (30_encoding.md R34). -/
theorem exists_decode_eq_ok_iff (w : Word) : (∃ i, decode w = .ok i) ↔ ¬ IllegalWord w :=
  ⟨fun ⟨i, h⟩ => encode_of_decode h ▸ not_illegalWord_encode i, decode_of_not_illegalWord⟩

/-- Settles O12: legality is the decoder's success, and each reason is named on the branch that tested its fields. -/
theorem decoderRefusesExactlyIllegalWords : Obligations.DecoderRefusesExactlyIllegalWords := by
  refine fun w => ⟨exists_decode_eq_ok_iff w, fun why h => ?_⟩
  unfold decode at h
  split_ifs at h with hop0 hz1 hz2 hop1 hblen hblk
  all_goals injection h with h; subst h
  · exact hop0
  · exact hz1
  · exact hz2
  · exact ⟨hop1, hblen⟩
  · exact ⟨hop1, hblk⟩

/-- Settles O15: the decoder evaluated on the six words. -/
theorem specExampleWordsDecode : Obligations.SpecExampleWordsDecode := ⟨rfl, rfl, rfl, rfl, rfl, rfl⟩

end Sys2Proof.Machine
end

section
/-! Steps and runs: a step runs the word at the port, a run never stops and takes the events in their order
(20_memory.md R25; 30_encoding.md R35; 70_reset_and_hazards.md R105, R109). -/

namespace Sys2Proof.Machine

/-! ### One step -/

/-- A step with a word that decodes runs its command (30_encoding.md R35). -/
theorem step_of_decode {s : State} {w : Word} {es : List Event} {i : Instr} (hp : s.pending = .command w :: es)
    (h : decode w = .ok i) : step s = exec i { s with pending := es } := by
  rw [step_command hp, issueWord_of_decode h]

/-- Settles O3: the step is the command of the word that it takes. -/
theorem stepRunsDecodedCommand : Obligations.StepRunsDecodedCommand := fun _ _ _ _ => step_of_decode

/-- A word written as a table row of 32 bits is that word. -/
@[simp] theorem tableWord_toNat (w : Word) : tableWord 32 w.toNat = w := by
  rw [tableWord, Nat.mod_eq_of_lt w.isLt, BitVec.ofNat_toNat, BitVec.setWidth_eq]

/-- Settles O4: the placed word is the word itself, first among the pending events. -/
theorem placedWordRunsNext : Obligations.PlacedWordRunsNext := by
  intro s w i h
  constructor
  · rw [decodeTableWord, if_pos le_rfl, tableWord_toNat, h]
    rfl
  · rw [State.withFetchWord, tableWord_toNat, step_of_decode (offerFirst_pending s _) h]
    rfl

/-- Settles O5: the idle step is the identity. -/
theorem idleStepChangesNothing : Obligations.IdleStepChangesNothing := fun _ => step_idle

/-- Settles O19: each outcome of a command writes the four registers and keeps the rest. -/
theorem commandFrame : Obligations.CommandFrame := by
  intro i s t h
  obtain ⟨t', ht', hresult⟩ := exec_result i s
  obtain rfl := Host.Outcome.next.inj (ht'.symm.trans h)
  exact hresult.pending

/-- Settles O30: the second run starts from the same pending events, and a command reads nothing else of the state. -/
theorem repeatedCommandChangesNothing : Obligations.RepeatedCommandChangesNothing := fun i _ _ h =>
  (exec_eq_of_pending_eq (commandFrame i _ _ h) i).trans h

/-! ### Runs -/

theorem run_zero (s : State) : Sys2Proof.core.run 0 s = .next s := rfl

/-- A run goes on from what its first step answers. -/
theorem run_succ {s t : State} (h : step s = .next t) (n : Nat) :
    Sys2Proof.core.run (n + 1) s = Sys2Proof.core.run n t := by
  have hcore : Sys2Proof.core.step s = .next t := h
  simp only [Host.Core.run, hcore]

/-- A run of `n` steps answers a next state and takes the first `n` pending events. -/
theorem run_total (n : Nat) (s : State) :
    ∃ t, Sys2Proof.core.run n s = .next t ∧ t.pending = s.pending.drop n := by
  induction n generalizing s with
  | zero => exact ⟨s, run_zero s, rfl⟩
  | succ n ih =>
    obtain ⟨u, hu, hpu⟩ := step_total s
    obtain ⟨t, ht, hpt⟩ := ih u
    exact ⟨t, (run_succ hu n).trans ht, by rw [hpt, hpu, List.drop_tail]⟩

/-- A run of `n + 1` steps ends with a step from where `n` steps end. -/
theorem run_succ_last {n : Nat} {s t : State} (h : Sys2Proof.core.run n s = .next t) :
    Sys2Proof.core.run (n + 1) s = step t := by
  induction n generalizing s with
  | zero =>
    obtain rfl : s = t := Host.Outcome.next.inj h
    obtain ⟨u, hu, -⟩ := step_total s
    exact (run_succ hu 0).trans hu.symm
  | succ n ih =>
    obtain ⟨u, hu, -⟩ := step_total s
    rw [run_succ hu] at h ⊢
    exact ih h

/-- Settles O6: each step of the run answers a next state. -/
theorem noRunStops : Obligations.NoRunStops := fun n s => (run_total n s).imp fun _ h => h.1

/-- Settles O7: a run takes exactly as many events as it has steps, from the front. -/
theorem eventsTakenInOrder : Obligations.EventsTakenInOrder := by
  intro s done rest hp
  obtain ⟨t, ht, hpt⟩ := run_total done.length s
  exact ⟨t, ht, by rw [hpt, hp, List.drop_left]⟩

/-! ### Statelessness -/

/-- DERIVE writes the same four values into every state. -/
theorem deriveCommand_eq_writeAll (t : Tables) (klen : Nat) (key : MasterKey) :
    ∃ o : OutputPort, ∀ s, deriveCommand t klen key s = s.writeAll o.k1 o.k2 o.r o.st := by
  by_cases h : klen = 10
  · subst h
    exact ⟨⟨_, _, _, _⟩, deriveCommand_ten t key⟩
  · exact ⟨⟨_, _, _, _⟩, deriveCommand_of_ne t h key⟩

/-- ENC and DEC write the same four values into every state. -/
theorem blockCommand_eq_writeAll (t : Tables) (cipher : Tables → Block → MasterKey → Block) (klen blen : Nat)
    (key : MasterKey) (blk : Block) :
    ∃ o : OutputPort, ∀ s, blockCommand t cipher klen blen key blk s = s.writeAll o.k1 o.k2 o.r o.st := by
  by_cases h : klen = 10 ∧ blen = 8
  · obtain ⟨rfl, rfl⟩ := h
    exact ⟨⟨_, _, _, _⟩, blockCommand_proper t cipher key blk⟩
  · exact ⟨⟨_, _, _, _⟩, blockCommand_of_ne t cipher (by omega) key blk⟩

/-- A command writes the same four values into every state: it reads no register (10_state.md R19). -/
theorem exec_eq_writeAll (i : Instr) :
    ∃ o : OutputPort, ∀ s, exec i s = .next (s.writeAll o.k1 o.k2 o.r o.st) := by
  cases i with
  | derive klen key =>
    exact (deriveCommand_eq_writeAll hardwareTables klen key).imp fun _ h s => congrArg _ (h s)
  | enc klen blen key blk =>
    exact (blockCommand_eq_writeAll hardwareTables encrypt klen blen key blk).imp fun _ h s => congrArg _ (h s)
  | dec klen blen key blk =>
    exact (blockCommand_eq_writeAll hardwareTables decrypt klen blen key blk).imp fun _ h s => congrArg _ (h s)

/-- A command word, legal or not, writes the same four values into every state (10_state.md R19). -/
theorem issueWord_eq_writeAll (w : Word) :
    ∃ o : OutputPort, ∀ s, issueWord w s = .next (s.writeAll o.k1 o.k2 o.r o.st) := by
  by_cases h : IllegalWord w
  · exact ⟨⟨_, _, _, _⟩, issueWord_of_illegalWord h⟩
  · obtain ⟨i, hd⟩ := decode_of_not_illegalWord h
    exact (exec_eq_writeAll i).imp fun _ ho s => (issueWord_of_decode hd s).trans (ho s)

/-- Settles O28: the values that a word writes are chosen before the state. -/
theorem outputsAreFunctionOfWord : Obligations.OutputsAreFunctionOfWord := by
  choose f hf using issueWord_eq_writeAll
  exact ⟨f, fun s w es hp => ⟨_, (step_command hp).trans (hf w _), rfl, rfl⟩⟩

/-- A run that takes all events but the word `w`, and then `w`, ends in what `w` writes, with no event left. -/
theorem run_last_command {w : Word} {o : OutputPort} (ho : ∀ s, issueWord w s = .next (s.writeAll o.k1 o.k2 o.r o.st))
    (s : State) (es : List Event) :
    Sys2Proof.core.run (es.length + 1) { s with pending := es ++ [.command w] } =
      .next { k1 := o.k1, k2 := o.k2, r := o.r, st := o.st, pending := [] } := by
  obtain ⟨t, ht, hpt⟩ := run_total es.length { s with pending := es ++ [.command w] }
  have hp : t.pending = [.command w] := by rw [hpt, List.drop_left]
  rw [run_succ_last ht, step_command hp, ho]
  rfl

/-- Settles O29: both runs end in what the last word writes. -/
theorem runsEndingAlikeAgree : Obligations.RunsEndingAlikeAgree := by
  intro s s' w es es'
  obtain ⟨o, ho⟩ := issueWord_eq_writeAll w
  exact ⟨_, run_last_command ho s es, run_last_command ho s' es'⟩

/-! ### A host's record of the errors -/

/-- The record of a run is the error shown first and the record of the rest. -/
theorem errorsSeen_succ {s t : State} (h : step s = .next t) (n : Nat) :
    errorsSeen (n + 1) s = s.err ||| errorsSeen n t := by
  rw [errorsSeen, h]

/-- A bit stands in the record exactly when a state on the way shows it (60_exceptions.md R98). -/
theorem getLsbD_errorsSeen (n b : Nat) (s : State) :
    (errorsSeen n s).getLsbD b = true ↔
      ∃ m ≤ n, ∃ t, Sys2Proof.core.run m s = .next t ∧ t.err.getLsbD b = true := by
  induction n generalizing s with
  | zero =>
    constructor
    · exact fun h => ⟨0, le_rfl, s, run_zero s, h⟩
    · rintro ⟨m, hm, t, ht, hb⟩
      obtain rfl := Nat.le_zero.mp hm
      obtain rfl : s = t := Host.Outcome.next.inj ht
      exact hb
  | succ n ih =>
    obtain ⟨u, hu, -⟩ := step_total s
    rw [errorsSeen_succ hu, BitVec.getLsbD_or, Bool.or_eq_true, ih]
    constructor
    · rintro (hb | ⟨m, hm, t, ht, hb⟩)
      · exact ⟨0, Nat.zero_le _, s, run_zero s, hb⟩
      · exact ⟨m + 1, Nat.succ_le_succ hm, t, (run_succ hu m).trans ht, hb⟩
    · rintro ⟨_ | m, hm, t, ht, hb⟩
      · obtain rfl : s = t := Host.Outcome.next.inj ht
        exact .inl hb
      · exact .inr ⟨m, Nat.le_of_succ_le_succ hm, t, (run_succ hu m).symm.trans ht, hb⟩

/-- Settles O31: the record by induction on the run, the error after a word by what the word writes, and no error where both
length checks pass. -/
theorem errorRecordForgetsNothing : Obligations.ErrorRecordForgetsNothing := by
  refine ⟨getLsbD_errorsSeen, fun s s' w es es' hp hp' => ?_, fun s w es key blk hp hd => ?_⟩
  · obtain ⟨o, ho⟩ := issueWord_eq_writeAll w
    exact ⟨_, _, (step_command hp).trans (ho _), (step_command hp').trans (ho _), rfl⟩
  · have hlengths : ∃ i, decode w = .ok i ∧ lengthErrs i = 0 := by
      rcases hd with hd | hd | hd
      · exact ⟨_, hd, rfl⟩
      · exact ⟨_, hd, rfl⟩
      · exact ⟨_, hd, rfl⟩
    obtain ⟨i, hi, herrs⟩ := hlengths
    obtain ⟨t, ht, herr⟩ := exec_err i { s with pending := es }
    exact ⟨t, (step_of_decode hp hi).trans ht, herr.trans herrs⟩

end Sys2Proof.Machine
end

section
/-! The status register and the invariants of the state: both follow from what an event can leave (10_state.md R13, R14). -/

namespace Sys2Proof.Machine

/-! ### The invariants -/

@[simp] theorem showSubkeys_kv (keys : Subkey × Subkey) (s : State) : (showSubkeys keys s).kv = true :=
  statusOf_kv false true 0

@[simp] theorem showResult_rv (keys : Subkey × Subkey) (result : Block) (s : State) :
    (showResult keys result s).rv = true :=
  statusOf_rv true true 0

@[simp] theorem showResult_kv (keys : Subkey × Subkey) (result : Block) (s : State) :
    (showResult keys result s).kv = true :=
  statusOf_kv true true 0

/-- ST has 0 in its hardwired bits when its error mask has 0 in bits 3 and 2. -/
theorem statusOf_hardwired (rv kv : Bool) {m : ErrMask} (h : m.getLsbD 3 = false ∧ m.getLsbD 2 = false) :
    (statusOf rv kv m).getLsbD 5 = false ∧ (statusOf rv kv m).getLsbD 3 = false ∧
      (statusOf rv kv m).getLsbD 2 = false := by
  revert rv kv m; decide

/-- Zeros with a mask of no hardwired bit, in which EILLEGAL stands alone, meet the invariants: clause (b) is what the fault
writes, and no output is valid. -/
theorem raiseFault_inv {m : ErrMask} (h : m.getLsbD 3 = false ∧ m.getLsbD 2 = false)
    (halone : m.getLsbD 4 = true → m.getLsbD 1 = false ∧ m.getLsbD 0 = false) (s : State) : (raiseFault m s).Inv where
  hardwired := statusOf_hardwired false false h
  faulted _ := ⟨raiseFault_kv m s, raiseFault_rv m s, rfl, rfl, rfl⟩
  resultHasKeys hrv := absurd hrv (by simp)
  invalidZero := ⟨fun _ => ⟨rfl, rfl⟩, fun _ => rfl⟩
  keysDerived hkv := absurd hkv (by simp)
  illegalAlone := by rwa [raiseFault_err]

/-- The subkeys of a key, shown alone, meet the invariants. -/
theorem showSubkeys_inv (key : MasterKey) (s : State) : (showSubkeys (keySchedule hardwareTables key) s).Inv where
  hardwired := statusOf_hardwired false true (by decide)
  faulted herr := absurd (showSubkeys_err ..) herr
  resultHasKeys _ := showSubkeys_kv ..
  invalidZero := ⟨fun hkv => absurd hkv (by simp), fun _ => rfl⟩
  keysDerived _ := ⟨key, rfl⟩
  illegalAlone h := absurd h (by simp)

/-- The subkeys of a key with a result meet the invariants. -/
theorem showResult_inv (key : MasterKey) (x : Block) (s : State) :
    (showResult (keySchedule hardwareTables key) x s).Inv where
  hardwired := statusOf_hardwired true true (by decide)
  faulted herr := absurd (showResult_err ..) herr
  resultHasKeys _ := showResult_kv ..
  invalidZero := ⟨fun hkv => absurd hkv (by simp), fun hrv => absurd hrv (by simp)⟩
  keysDerived _ := ⟨key, rfl⟩
  illegalAlone h := absurd h (by simp)

/-- What a command leaves meets the invariants, whatever stood before it. -/
theorem EventResult.inv {s t : State} (h : EventResult s t) : t.Inv := by
  cases h with
  | fault m hm =>
    have hmask : ∀ m ∈ [eKeyLen, eBlkLen, eKeyLen ||| eBlkLen, eIllegal],
        (m.getLsbD 3 = false ∧ m.getLsbD 2 = false) ∧
          (m.getLsbD 4 = true → m.getLsbD 1 = false ∧ m.getLsbD 0 = false) := by decide
    obtain ⟨hhardwired, halone⟩ := hmask m hm
    exact raiseFault_inv hhardwired halone s
  | subkeys key => exact showSubkeys_inv key s
  | result key x => exact showResult_inv key x s

/-- The zeros of reset meet the invariants: they are those of a fault with no error. -/
theorem resetRegisters_inv (s : State) : (resetRegisters s).Inv :=
  raiseFault_inv (m := 0) (by decide) (by decide) s

/-- Settles O26: the state after reset has the registers of the reset event. -/
theorem resetMeetsInvariants : Obligations.ResetMeetsInvariants := resetRegisters_inv State.reset

/-- Settles O27: a word and a reset each leave registers that meet the invariants. -/
theorem anyEventEstablishesInvariants : Obligations.AnyEventEstablishesInvariants := by
  intro s t e es hp hstep
  cases e with
  | command w =>
    obtain ⟨t', ht', hresult⟩ := issueWord_result w { s with pending := es }
    obtain rfl := Host.Outcome.next.inj ((ht'.symm.trans (step_command hp).symm).trans hstep)
    exact hresult.inv
  | reset =>
    rw [step_reset hp, Host.Outcome.next.injEq] at hstep
    exact hstep ▸ resetRegisters_inv { s with pending := es }

/-- Settles O25: a step that takes an event establishes the invariants, and an idle step keeps the state that met them. -/
theorem stepKeepsInvariants : Obligations.StepKeepsInvariants := by
  intro s t hinv hstep
  cases hp : s.pending with
  | nil =>
    obtain rfl := Host.Outcome.next.inj ((step_idle hp).symm.trans hstep)
    exact hinv
  | cons e es => exact anyEventEstablishesInvariants s t e es hp hstep

/-! ### The fields of ST -/

/-- A status is the number of its fields at their places (10_state.md R13). -/
theorem status_toNat (st : BitVec 8) :
    st.toNat = 128 * (st.getLsbD 7).toNat + 64 * (st.getLsbD 6).toNat + 32 * (st.getLsbD 5).toNat +
      (st.extractLsb' 0 5).toNat := by
  revert st; decide

/-- Settles O24: the places for each value of ST, and the hardwired bits as a clause of the invariants. -/
theorem statusFieldPlaces : Obligations.StatusFieldPlaces := by
  refine ⟨fun s => status_toNat s.st, fun s w es hp => ?_, fun i s t h => ?_⟩
  · obtain ⟨t, ht, hresult⟩ := issueWord_result w { s with pending := es }
    exact ⟨t, (step_command hp).trans ht, hresult.inv.hardwired⟩
  · obtain ⟨t', ht', hresult⟩ := exec_result i s
    obtain rfl := Host.Outcome.next.inj (ht'.symm.trans h)
    exact hresult.inv.hardwired

/-! ### The status after a command -/

/-- The status that the length checks give a command, `valid` where they pass (10_state.md R13, the table of values). -/
def lengthStatus (valid : BitVec 8) (klen blen : Nat) : BitVec 8 :=
  if klen = 10 then if blen = 8 then valid else 0x02 else if blen = 8 then 0x01 else 0x03

/-- The status that a legal command leaves; the length of a block counts for ENC and DEC only. -/
def instrStatus : Instr → BitVec 8
  | .derive klen _ => lengthStatus 0x40 klen 8
  | .enc klen blen _ _ | .dec klen blen _ _ => lengthStatus 0xC0 klen blen

theorem deriveCommand_st (t : Tables) (klen : Nat) (key : MasterKey) (s : State) :
    (deriveCommand t klen key s).st = lengthStatus 0x40 klen 8 := by
  by_cases h : klen = 10
  · rw [h]; rfl
  · rw [deriveCommand_of_ne t h, keyLenErr_of_ne h, lengthStatus, if_neg h]
    rfl

theorem blockCommand_st (t : Tables) (cipher : Tables → Block → MasterKey → Block) (klen blen : Nat) (key : MasterKey)
    (blk : Block) (s : State) : (blockCommand t cipher klen blen key blk s).st = lengthStatus 0xC0 klen blen := by
  obtain ⟨hproper, hklen, hblen, hboth⟩ := blockCommand_effect t cipher key blk s klen blen
  unfold lengthStatus
  split_ifs with hk hb hb
  · rw [hproper ⟨hk, hb⟩]
  · rw [hblen ⟨hk, hb⟩]
  · rw [hklen ⟨hk, hb⟩]
  · rw [hboth ⟨hk, hb⟩]

/-- A legal command leaves the status of its lengths. -/
theorem exec_st (i : Instr) (s : State) : ∃ t, exec i s = .next t ∧ t.st = instrStatus i := by
  cases i with
  | derive klen key => exact ⟨_, rfl, deriveCommand_st ..⟩
  | enc klen blen key blk => exact ⟨_, rfl, blockCommand_st ..⟩
  | dec klen blen key blk => exact ⟨_, rfl, blockCommand_st ..⟩

/-- The values that the length checks can give, and for each the lengths that give it. -/
theorem lengthStatus_cases {valid : BitVec 8} (h : valid = 0x40 ∨ valid = 0xC0) (klen blen : Nat) :
    lengthStatus valid klen blen ∈ commandStatuses ∧
    (lengthStatus valid klen blen = 0x40 ↔ klen = 10 ∧ blen = 8 ∧ valid = 0x40) ∧
    (lengthStatus valid klen blen = 0xC0 ↔ klen = 10 ∧ blen = 8 ∧ valid = 0xC0) ∧
    (lengthStatus valid klen blen = 0x01 ↔ klen ≠ 10 ∧ blen = 8) ∧
    (lengthStatus valid klen blen = 0x02 ↔ blen ≠ 8 ∧ klen = 10) ∧
    (lengthStatus valid klen blen = 0x03 ↔ klen ≠ 10 ∧ blen ≠ 8) ∧
    lengthStatus valid klen blen ≠ 0x10 := by
  unfold lengthStatus
  rcases h with rfl | rfl
  all_goals split_ifs with hk hb hb
  all_goals simp [hk, hb, commandStatuses]

/-- A legal word leaves one status, which tells the command and which of its lengths are proper. -/
theorem instrStatus_cases (i : Instr) :
    instrStatus i ∈ commandStatuses ∧
    (instrStatus i = 0x40 ↔ ∃ key, i = .derive 10 key) ∧
    (instrStatus i = 0xC0 ↔ ∃ key blk, i = .enc 10 8 key blk ∨ i = .dec 10 8 key blk) ∧
    (instrStatus i = 0x01 ↔ ∃ klen key, klen ≠ 10 ∧ (i = .derive klen key ∨
      ∃ blk, i = .enc klen 8 key blk ∨ i = .dec klen 8 key blk)) ∧
    (instrStatus i = 0x02 ↔ ∃ blen key blk, blen ≠ 8 ∧ (i = .enc 10 blen key blk ∨ i = .dec 10 blen key blk)) ∧
    (instrStatus i = 0x03 ↔ ∃ klen blen key blk, klen ≠ 10 ∧ blen ≠ 8 ∧
      (i = .enc klen blen key blk ∨ i = .dec klen blen key blk)) ∧
    instrStatus i ≠ 0x10 := by
  cases i with
  | derive klen key =>
    simpa [instrStatus] using lengthStatus_cases (.inl rfl) klen 8
  | enc klen blen key blk | dec klen blen key blk =>
    simpa [instrStatus] using lengthStatus_cases (.inr rfl) klen blen

/-- Settles O23: an illegal word leaves EILLEGAL and decodes to nothing, a legal one the status of its command. -/
theorem statusAfterEveryCommand : Obligations.StatusAfterEveryCommand := by
  intro s w es hp
  by_cases hw : IllegalWord w
  · obtain ⟨why, hd⟩ := decode_of_illegalWord hw
    exact ⟨_, step_of_illegalWord hp hw, by simp [hd, hw, commandStatuses]⟩
  · obtain ⟨i, hd⟩ := decode_of_not_illegalWord hw
    obtain ⟨t, ht, hst⟩ := exec_st i { s with pending := es }
    refine ⟨t, (step_of_decode hp hd).trans ht, ?_⟩
    simpa only [hst, hd, Except.ok.injEq, hw, iff_false] using instrStatus_cases i

end Sys2Proof.Machine
end

section
/-! Building a TABLES record: a table is built exactly when it holds the list as given, and only a well-formed list is held
by a table (40_permutation_engine.md R41; 42_feistel_round.md R65; 60_exceptions.md R94). -/

namespace Sys2Proof.Machine

/-! ### One permutation table -/

/-- A table is built exactly from the list of its entries. -/
theorem buildPerm_eq_ok_iff {n L : Nat} {name : String} {positions : List Nat} {T : PermTable n L} :
    buildPerm n L name positions = .ok T ↔ T.entries.toList = positions := by
  constructor
  · intro h
    unfold buildPerm at h
    split_ifs at h
    dsimp only at h
    split_ifs at h
    injection h with h
    subst h
    rfl
  · rintro rfl
    have hlength : T.entries.toList.length = L := T.entries.length_toList
    exact (dif_pos hlength).trans (dif_pos T.inRange)

/-- The entries of a table are well formed, as its type says (40_permutation_engine.md R41). -/
theorem positionsWellFormed_entries {n L : Nat} (T : PermTable n L) : PositionsWellFormed n L T.entries.toList := by
  refine ⟨T.entries.length_toList, fun p hp => ?_⟩
  obtain ⟨i, hi, rfl⟩ := List.mem_iff_getElem.mp hp
  exact T.inRange ⟨i, by simpa using hi⟩

/-- A well-formed list is the entries of a table. -/
theorem exists_entries_eq {n L : Nat} {positions : List Nat} (h : PositionsWellFormed n L positions) :
    ∃ T : PermTable n L, T.entries.toList = positions := by
  obtain ⟨rfl, hrange⟩ := h
  exact ⟨⟨⟨positions.toArray, rfl⟩, fun i => hrange _ (List.getElem_mem i.isLt)⟩, rfl⟩

/-! ### One S-box -/

/-- The rows of an S-box as lists of numbers. -/
abbrev sboxRows (S : SBox) : List (List Nat) := S.toList.map fun row => row.toList.map Fin.val

/-- The rows of an S-box are well formed, as its type says (42_feistel_round.md R65). -/
theorem sboxWellFormed_sboxRows (S : SBox) : SBoxWellFormed (sboxRows S) := by
  refine ⟨by simp, fun row hrow => ?_⟩
  obtain ⟨v, -, rfl⟩ := List.mem_map.mp hrow
  refine ⟨by simp, fun c hc => ?_⟩
  obtain ⟨x, -, rfl⟩ := List.mem_map.mp hc
  omega

theorem sboxRows_injective : Function.Injective sboxRows := by
  intro S S' h
  have hrow : Function.Injective fun row : Vector (Fin 4) 4 => row.toList.map Fin.val := fun row row' hrows =>
    Vector.toList_inj.mp (List.map_injective_iff.mpr Fin.val_injective hrows)
  exact Vector.toList_inj.mp (List.map_injective_iff.mpr hrow h)

/-- Well-formed rows are built. -/
theorem exists_buildSBox_of_sboxWellFormed (name : String) {rows : List (List Nat)} (h : SBoxWellFormed rows) :
    ∃ S, buildSBox name rows = .ok S := by
  obtain ⟨hlength, hrows⟩ := h
  exact ⟨_, dif_pos ⟨hlength, fun row hrow =>
    ⟨(hrows row hrow).1, fun v hv => Nat.lt_succ_of_le ((hrows row hrow).2 v hv)⟩⟩⟩

/-- An S-box that is built holds the rows as given. -/
theorem sboxRows_of_buildSBox {name : String} {rows : List (List Nat)} {S : SBox} (h : buildSBox name rows = .ok S) :
    sboxRows S = rows := by
  unfold buildSBox at h
  split_ifs at h with hcheck
  injection h with h
  subst h
  obtain ⟨hlength, hrows⟩ := hcheck
  refine List.ext_getElem (by simp [hlength]) fun i hi hi' => ?_
  refine List.ext_getElem (by simp [(hrows _ (List.getElem_mem hi')).1]) fun j hj hj' => ?_
  simp

/-- An S-box is built exactly from the list of its rows. -/
theorem buildSBox_eq_ok_iff {name : String} {rows : List (List Nat)} {S : SBox} :
    buildSBox name rows = .ok S ↔ sboxRows S = rows := by
  refine ⟨sboxRows_of_buildSBox, ?_⟩
  rintro rfl
  obtain ⟨S', hbuild⟩ := exists_buildSBox_of_sboxWellFormed name (sboxWellFormed_sboxRows S)
  rw [hbuild, sboxRows_injective (sboxRows_of_buildSBox hbuild)]

/-- Well-formed rows are those of an S-box. -/
theorem exists_sboxRows_eq {rows : List (List Nat)} (h : SBoxWellFormed rows) : ∃ S, sboxRows S = rows :=
  (exists_buildSBox_of_sboxWellFormed "" h).imp fun _ => sboxRows_of_buildSBox

/-! ### The record -/

theorem except_bind_eq_ok_iff {ε α β : Type} {x : Except ε α} {f : α → Except ε β} {b : β} :
    x.bind f = .ok b ↔ ∃ a, x = .ok a ∧ f a = .ok b := by
  cases x <;> simp [Except.bind]

/-- A record of tables holds the lists of a record as given. -/
structure HoldsLists (t : Tables) (raw : RawTables) : Prop where
  p10 : t.p10.entries.toList = raw.p10
  p8 : t.p8.entries.toList = raw.p8
  ip : t.ip.entries.toList = raw.ip
  ipinv : t.ipinv.entries.toList = raw.ipinv
  ep : t.ep.entries.toList = raw.ep
  p4 : t.p4.entries.toList = raw.p4
  s0 : sboxRows t.s0 = raw.s0
  s1 : sboxRows t.s1 = raw.s1

/-- A record is built exactly from the lists that it holds. -/
theorem buildTables_eq_ok_iff {raw : RawTables} {t : Tables} : buildTables raw = .ok t ↔ HoldsLists t raw := by
  simp only [buildTables, except_bind_eq_ok_iff, buildPerm_eq_ok_iff, buildSBox_eq_ok_iff, Except.ok.injEq]
  constructor
  · rintro ⟨p10, h10, p8, h8, ip, hip, ipinv, hipinv, ep, hep, p4, h4, s0, hs0, s1, hs1, rfl⟩
    exact ⟨h10, h8, hip, hipinv, hep, h4, hs0, hs1⟩
  · rintro ⟨h10, h8, hip, hipinv, hep, h4, hs0, hs1⟩
    exact ⟨_, h10, _, h8, _, hip, _, hipinv, _, hep, _, h4, _, hs0, _, hs1, rfl⟩

/-- The lists that some record of tables holds are the well-formed ones. -/
theorem exists_holdsLists_iff (raw : RawTables) : (∃ t, HoldsLists t raw) ↔ RawWellFormed raw := by
  constructor
  · rintro ⟨t, h10, h8, hip, hipinv, hep, h4, hs0, hs1⟩
    exact
      { p10 := h10 ▸ positionsWellFormed_entries t.p10
        p8 := h8 ▸ positionsWellFormed_entries t.p8
        ip := hip ▸ positionsWellFormed_entries t.ip
        ipinv := hipinv ▸ positionsWellFormed_entries t.ipinv
        ep := hep ▸ positionsWellFormed_entries t.ep
        p4 := h4 ▸ positionsWellFormed_entries t.p4
        s0 := hs0 ▸ sboxWellFormed_sboxRows t.s0
        s1 := hs1 ▸ sboxWellFormed_sboxRows t.s1 }
  · intro h
    obtain ⟨p10, h10⟩ := exists_entries_eq h.p10
    obtain ⟨p8, h8⟩ := exists_entries_eq h.p8
    obtain ⟨ip, hip⟩ := exists_entries_eq h.ip
    obtain ⟨ipinv, hipinv⟩ := exists_entries_eq h.ipinv
    obtain ⟨ep, hep⟩ := exists_entries_eq h.ep
    obtain ⟨p4, h4⟩ := exists_entries_eq h.p4
    obtain ⟨s0, hs0⟩ := exists_sboxRows_eq h.s0
    obtain ⟨s1, hs1⟩ := exists_sboxRows_eq h.s1
    exact ⟨⟨p10, p8, ip, ipinv, ep, p4, s0, s1⟩, h10, h8, hip, hipinv, hep, h4, hs0, hs1⟩

/-- The hardware's tables hold the hardware's lists (92_eei_decisions.md D17). -/
theorem hardwareTables_holdsLists : HoldsLists hardwareTables hardwareRawTables :=
  ⟨rfl, rfl, rfl, rfl, rfl, rfl, rfl, rfl⟩

/-- Settles O34: a record is built exactly when some tables hold its lists, and no length check raises ETABLE. -/
theorem malformedTablesRefused : Obligations.MalformedTablesRefused := by
  refine ⟨fun raw => ?_, fun raw t h => ?_, buildTables_eq_ok_iff.mpr hardwareTables_holdsLists, fun i s t h => ?_⟩
  · simp only [buildTables_eq_ok_iff, exists_holdsLists_iff]
  · obtain ⟨h10, h8, hip, hipinv, hep, h4, hs0, hs1⟩ := buildTables_eq_ok_iff.mp h
    exact ⟨h10, h8, hip, hipinv, hep, h4, hs0, hs1⟩
  · obtain ⟨t', ht', herr⟩ := exec_err i s
    obtain rfl := Host.Outcome.next.inj (ht'.symm.trans h)
    rw [herr, getLsbD_lengthErrs_of_ge i (by decide)]

end Sys2Proof.Machine
end

section
/-! The wiring of the key schedule: which element of the key each element of a subkey is, and that no element of the key is
lost (41_key_schedule.md section 1). -/

namespace Sys2Proof.Machine

/-- The element of a permuted key that stands at place `i` after its halves were each rotated by `amount`. -/
def halvesIndex (amount : Nat) (i : Fin 10) : Fin 10 :=
  if i.val < 5 then ⟨(i + amount) % 5, by omega⟩ else ⟨(i - 5 + amount) % 5 + 5, by omega⟩

theorem el_rotl_halves (p : MasterKey) (amount : Nat) (i : Fin 10) :
    el (rotl (keyLeft p) amount ++ rotl (keyRight p) amount) i = el p (halvesIndex amount i) := by
  have hmod : ∀ j, (j + amount) % (4 + 1) < 5 := fun j => Nat.mod_lt _ (by decide)
  rw [el_append]
  by_cases h : i.val < 5
  · have hindex : (halvesIndex amount i).val = (i + amount) % 5 := by rw [halvesIndex, if_pos h]
    rw [if_pos h, el_rotl_add _ amount i h, el_keyLeft p _ (hmod _), hindex]
  · have hindex : (halvesIndex amount i).val = (i - 5 + amount) % 5 + 5 := by rw [halvesIndex, if_neg h]
    rw [if_neg h, el_rotl_add _ amount (i - 5) (by omega), el_keyRight p _ (hmod _), hindex]

/-- The element of the key that element `i` of a subkey is, when the halves were rotated by `amount` before P8. -/
def subkeySource (t : Tables) (amount : Nat) (i : Fin 8) : Fin 10 :=
  tableIndex t.p10 (halvesIndex amount (tableIndex t.p8 i))

/-- K1 by the elements of the key, for every TABLES record (41_key_schedule.md R53). -/
theorem el_keySchedule_fst (t : Tables) (k : MasterKey) (i : Fin 8) :
    el (keySchedule t k).1 i = el k (subkeySource t 1 i) := by
  rw [keySchedule_fst, el_permute, el_rotl_halves, el_permute, subkeySource]

/-- K2 by the elements of the key, for every TABLES record (41_key_schedule.md R54). -/
theorem el_keySchedule_snd (t : Tables) (k : MasterKey) (i : Fin 8) :
    el (keySchedule t k).2 i = el k (subkeySource t 3 i) := by
  rw [keySchedule_snd, el_permute, el_rotl_halves, el_permute, subkeySource]

/-- The hardware's sources of K1. -/
theorem subkeySource_one : List.ofFn (subkeySource hardwareTables 1) = [0, 6, 8, 3, 7, 2, 9, 5] := by decide

/-- The hardware's sources of K2. -/
theorem subkeySource_three : List.ofFn (subkeySource hardwareTables 3) = [7, 2, 5, 4, 9, 1, 8, 0] := by decide

/-- The elements of a vector of 8 from the list of the elements of the key that they are. -/
theorem map_el_of_sources {x : Subkey} {k : MasterKey} {source : Fin 8 → Fin 10}
    (h : ∀ i : Fin 8, el x i = el k (source i)) :
    (List.range 8).map (fun i => el x i) = (List.ofFn source).map fun j : Fin 10 => el k j := by
  refine List.ext_getElem (by simp) fun i hi hi' => ?_
  simpa only [List.getElem_map, List.getElem_range, List.getElem_ofFn] using h ⟨i, by simpa using hi⟩

/-- Settles O38: both wirings are the sources that the tables give, with the elements of the key numbered as bits. -/
theorem keyScheduleWiring : Obligations.KeyScheduleWiring := by
  intro k
  rw [map_el_of_sources (el_keySchedule_fst hardwareTables k), map_el_of_sources (el_keySchedule_snd hardwareTables k),
    subkeySource_one, subkeySource_three]
  exact ⟨rfl, rfl⟩

/-- Every element of the key stands in K1 or in K2 (41_key_schedule.md R55). -/
theorem exists_subkeySource_eq (j : Fin 10) :
    (∃ i, subkeySource hardwareTables 1 i = j) ∨ ∃ i, subkeySource hardwareTables 3 i = j := by
  revert j; decide

/-- Settles O39: each element of the key is read off the subkey in which it stands. -/
theorem keyScheduleOneToOne : Obligations.KeyScheduleOneToOne := by
  refine fun k k' h => eq_of_el fun j hj => ?_
  rcases exists_subkeySource_eq ⟨j, hj⟩ with ⟨i, hi⟩ | ⟨i, hi⟩
  · have hk := el_keySchedule_fst hardwareTables k i
    rwa [h, el_keySchedule_fst, hi, eq_comm] at hk
  · have hk := el_keySchedule_snd hardwareTables k i
    rwa [h, el_keySchedule_snd, hi, eq_comm] at hk

end Sys2Proof.Machine
end

section
/-! What the involutions of the cipher give: SWAP, the round twice, the bijections, and the round trip of the commands; and
the S-boxes flattened (42_feistel_round.md section 3; 43_cipher_driver.md sections 1 to 4). -/

namespace Sys2Proof.Machine

/-- Settles O42: the round keeps the half that F reads. -/
theorem roundTwiceIsIdentity : Obligations.RoundTwiceIsIdentity := feistelRound_feistelRound

/-- Settles O43: SWAP is the concatenation of the halves in the other order. -/
theorem swapExchangesHalves : Obligations.SwapExchangesHalves := by
  refine fun b => ⟨fun i hi => ⟨?_, ?_⟩, swapHalves_swapHalves b⟩
  · rw [swapHalves, el_append, if_pos hi, el_rightHalf b i hi]
  · rw [swapHalves, el_append, if_neg (by omega), Nat.add_sub_cancel, el_leftHalf b i hi]

/-- Settles O46: each of the two functions has the other as its inverse on both sides. -/
theorem encryptIsBijection : Obligations.EncryptIsBijection := fun _ h k =>
  ⟨Function.bijective_iff_has_inverse.mpr ⟨_, fun x => decrypt_encrypt h x k, fun x => encrypt_decrypt h x k⟩,
    Function.bijective_iff_has_inverse.mpr ⟨_, fun x => encrypt_decrypt h x k, fun x => decrypt_encrypt h x k⟩⟩

/-- ENC with proper lengths, given to the core (43_cipher_driver.md R79). -/
theorem step_offerFirst_enc (key : MasterKey) (blk : Block) (s : State) :
    step (s.offerFirst (.command (encode (.enc 10 8 key blk)))) = .next
      { k1 := (keySchedule hardwareTables key).1, k2 := (keySchedule hardwareTables key).2
        r := encrypt hardwareTables blk key, st := 0xC0, pending := s.pending } := by
  rw [step_offerFirst_encode rfl, exec_enc, blockCommand_proper]

/-- DEC with proper lengths, given to the core (43_cipher_driver.md R80). -/
theorem step_offerFirst_dec (key : MasterKey) (blk : Block) (s : State) :
    step (s.offerFirst (.command (encode (.dec 10 8 key blk)))) = .next
      { k1 := (keySchedule hardwareTables key).1, k2 := (keySchedule hardwareTables key).2
        r := decrypt hardwareTables blk key, st := 0xC0, pending := s.pending } := by
  rw [step_offerFirst_encode rfl, exec_dec, blockCommand_proper]

/-- Settles O47: the second command decrypts, under the same key, what the first one shows. -/
theorem decCommandUndoesEncCommand : Obligations.DecCommandUndoesEncCommand := fun s key blk =>
  ⟨_, _, step_offerFirst_enc key blk s, step_offerFirst_dec key _ _,
    decrypt_encrypt hardwareTables_inverse blk key, rfl, rfl, rfl, rfl, rfl⟩

/-- Settles O56: the cells computed for the sixteen groups. -/
theorem flattenedSBoxes : Obligations.FlattenedSBoxes := ⟨by decide, by decide⟩

end Sys2Proof.Machine
end

section
/-! The reference evaluator: each function on sequences is the machine's function on vectors, read by elements
(95_test_vectors.md section 6). -/

namespace Sys2Proof.Machine

/-! ### Sequences of a vector -/

@[simp] theorem getElem_elements {n : Nat} (x : BitVec n) (i : Nat) (h : i < (elements x).length) :
    (elements x)[i] = el x i := by
  simp [elements]

/-- A list is the sequence of a vector when it has its length and its elements. -/
theorem elements_eq {n : Nat} {x : BitVec n} {l : List Bool} (hlength : l.length = n)
    (h : ∀ i, (hi : i < l.length) → el x i = l[i]) : elements x = l :=
  List.ext_getElem (by simp [hlength]) fun i _ hi => (getElem_elements x i _).trans (h i hi)

theorem elements_append {m n : Nat} (a : BitVec m) (b : BitVec n) :
    elements (a ++ b) = elements a ++ elements b :=
  elements_eq (by simp) fun i hi => by
    rw [el_append, List.getElem_append]
    simp

theorem elements_xor {n : Nat} (a b : BitVec n) : elements (a ^^^ b) = List.zipWith xor (elements a) (elements b) :=
  elements_eq (by simp) fun i hi => by rw [el_xor]; simp

theorem elements_permute {n L : Nat} (T : PermTable n L) (x : BitVec n) :
    elements (permute T x) = seqPermute (elements x) T.entries.toList :=
  elements_eq (by simp [seqPermute]) fun i hi => by
    have hL : i < L := by simpa [seqPermute] using hi
    rw [el_permute T x ⟨i, hL⟩, ← elements_getD]
    simp [seqPermute, tableIndex]

theorem elements_rotl {n : Nat} (x : BitVec (n + 1)) (k : Nat) : elements (rotl x k) = seqRotl (elements x) k := by
  rw [seqRotl, ← List.rotate_eq_drop_append_take_mod]
  refine elements_eq (by simp) fun i hi => ?_
  rw [el_rotl_add x k i (by simpa using hi), List.getElem_rotate, getElem_elements, elements_length]

/-- A key is its halves. -/
theorem keyLeft_append_keyRight (p : MasterKey) : keyLeft p ++ keyRight p = p :=
  eq_of_el fun i h => by
    rw [el_append]
    split
    case isTrue hi => exact el_keyLeft p i hi
    case isFalse hi => rw [el_keyRight p (i - 5) (by omega), Nat.sub_add_cancel (by omega)]

/-- The first elements of a concatenation are its left part. -/
theorem elements_left_of_append_eq {m n : Nat} {a : BitVec m} {b : BitVec n} {x : BitVec (m + n)} (h : a ++ b = x) :
    elements a = (elements x).take m := by
  rw [← h, elements_append, List.take_left' (elements_length a)]

/-- The elements after those of the left part are the right part. -/
theorem elements_right_of_append_eq {m n : Nat} {a : BitVec m} {b : BitVec n} {x : BitVec (m + n)} (h : a ++ b = x) :
    elements b = (elements x).drop m := by
  rw [← h, elements_append, List.drop_left' (elements_length a)]

theorem elements_keyLeft (p : MasterKey) : elements (keyLeft p) = (elements p).take 5 :=
  elements_left_of_append_eq (keyLeft_append_keyRight p)

theorem elements_keyRight (p : MasterKey) : elements (keyRight p) = (elements p).drop 5 :=
  elements_right_of_append_eq (keyLeft_append_keyRight p)

theorem elements_leftHalf (b : Block) : elements (leftHalf b) = (elements b).take 4 :=
  elements_left_of_append_eq (leftHalf_append_rightHalf b)

theorem elements_rightHalf (b : Block) : elements (rightHalf b) = (elements b).drop 4 :=
  elements_right_of_append_eq (leftHalf_append_rightHalf b)

/-! ### Sequences as numbers -/

/-- The digits of a number are the elements of its vector. -/
theorem seqOfNat_toNat {n : Nat} (x : BitVec n) : seqOfNat n x.toNat = elements x :=
  .symm <| elements_eq (by simp [seqOfNat]) fun i hi => by
    rw [el_eq_getLsbD x i (by simpa [seqOfNat] using hi)]
    simp [seqOfNat, BitVec.testBit_toNat]

/-- The digits of a number are those of its half and its last digit. -/
theorem seqOfNat_succ (n v : Nat) : seqOfNat (n + 1) v = seqOfNat n (v / 2) ++ [v.testBit 0] := by
  simp only [seqOfNat, List.range_succ, List.map_append, List.map_cons, List.map_nil, Nat.add_sub_cancel, Nat.sub_self]
  congr 1
  refine List.map_congr_left fun i hi => ?_
  rw [List.mem_range] at hi
  rw [← Nat.testBit_add_one, show n - 1 - i + 1 = n - i by omega]

theorem seqToNat_append_singleton (l : List Bool) (b : Bool) : seqToNat (l ++ [b]) = 2 * seqToNat l + b.toNat := by
  simp [seqToNat]

/-- A numeral of `n` digits is read as the number modulo `2 ^ n`. -/
theorem seqToNat_seqOfNat (n v : Nat) : seqToNat (seqOfNat n v) = v % 2 ^ n := by
  induction n generalizing v with
  | zero => simp [seqOfNat, seqToNat, Nat.mod_one]
  | succ n ih =>
    rw [seqOfNat_succ, seqToNat_append_singleton, ih, Nat.pow_succ', Nat.mod_mul, Nat.toNat_testBit]
    omega

theorem seqToNat_elements {n : Nat} (x : BitVec n) : seqToNat (elements x) = x.toNat := by
  rw [← seqOfNat_toNat, seqToNat_seqOfNat, Nat.mod_eq_of_lt x.isLt]

/-! ### The functions of the cipher -/

theorem seqKeySchedule_elements (k : MasterKey) :
    seqKeySchedule (elements k) =
      (elements (keySchedule hardwareTables k).1, elements (keySchedule hardwareTables k).2) := by
  simp only [keySchedule, elements_permute, elements_append, elements_rotl, elements_keyLeft, elements_keyRight]
  rfl

theorem getD_sboxRows (S : SBox) (row col : Fin 4) : ((sboxRows S).getD row []).getD col 0 = S[row][col] := by
  simp [List.getD]

theorem elements_sbox (S : SBox) (g : Half) : elements (sbox S g) = seqSBox (elements g) (sboxRows S) := by
  have hcell : ((sboxRows S).getD (2 * (el g 0).toNat + (el g 3).toNat) []).getD
      (2 * (el g 1).toNat + (el g 2).toNat) 0 = sboxCell S g := getD_sboxRows S (sboxRow g) (sboxCol g)
  simp only [seqSBox, elements_getD, hcell]
  refine elements_eq rfl fun i hi => ?_
  have hpair : i < 2 := hi
  rw [sbox, el_ofElements _ i hpair]
  interval_cases i <;> rfl

theorem elements_fFunction (rt : Half) (sk : Subkey) :
    elements (fFunction hardwareTables rt sk) = seqF (elements rt) (elements sk) := by
  simp only [fFunction_eq, elements_permute, elements_append, elements_sbox, elements_leftHalf, elements_rightHalf,
    elements_xor]
  rfl

theorem elements_feistelRound (b : Block) (sk : Subkey) :
    elements (feistelRound hardwareTables b sk) = seqRound (elements b) (elements sk) := by
  rw [feistelRound_eq, elements_append, elements_xor, elements_fFunction, elements_leftHalf, elements_rightHalf,
    seqRound]

theorem elements_swapHalves (b : Block) : elements (swapHalves b) = seqSwap (elements b) := by
  rw [swapHalves, elements_append, elements_leftHalf, elements_rightHalf, seqSwap]

theorem elements_twoRounds (first second : Subkey) (x : Block) :
    elements (twoRounds hardwareTables first second x) = seqCipher (elements first) (elements second) (elements x) := by
  rw [twoRounds_eq, elements_permute, elements_feistelRound, elements_swapHalves, elements_feistelRound,
    elements_permute]
  rfl

/-! ### The evaluator -/

/-- The registers of a state as numbers. -/
def registerNats (s : State) : Nat × Nat × Nat × Nat := (s.k1.toNat, s.k2.toNat, s.r.toNat, s.st.toNat)

theorem seqExec_of_illegalWord {w : Word} (h : IllegalWord w) : seqExec w.toNat = (0, 0, 0, 0x10) := by
  simp only [illegalWord_iff_fields, ne_eq, ← BitVec.toNat_inj, opField_toNat, z1Field_toNat, blenField_toNat,
    z2Field_toNat, blkField_toNat] at h
  have hop : w.toNat / 2 ^ 30 % 4 = w.toNat / 2 ^ 30 := Nat.mod_eq_of_lt (by omega)
  rw [seqExec, hop]
  exact if_pos h

theorem seqExec_derive {w : Word} {klen : Nat} {key : MasterKey} (h : decode w = .ok (.derive klen key)) (s : State) :
    seqExec w.toNat = registerNats (deriveCommand hardwareTables klen key s) := by
  obtain ⟨hz1, hz2, hop, hklen, hblen, hkey, hblk⟩ := decoderReadsEachField w _ h
  simp only [seqExec, hz1, hz2, hop, hblen, hblk, ← hklen, ← hkey, seqOfNat_toNat, seqKeySchedule_elements,
    seqToNat_elements]
  by_cases hk : klen = 10
  · rw [hk, deriveCommand_ten]
    rfl
  · rw [deriveCommand_of_ne _ hk, keyLenErr_of_ne hk, if_pos hk]
    rfl

/-- The evaluator on a word of OP = 2 or 3 whose reserved fields are 0, with the subkeys in the order of `cipher`. -/
theorem seqExec_block {w : Word} {op : Nat} {cipher : Tables → Block → MasterKey → Block}
    (hcipher : op = 2 ∧ cipher = encrypt ∨ op = 3 ∧ cipher = decrypt) (hop : w.toNat / 2 ^ 30 = op)
    (hz1 : w.toNat / 2 ^ 28 % 4 = 0) (hz2 : w.toNat / 2 ^ 18 % 4 = 0) {klen blen : Nat} {key : MasterKey} {blk : Block}
    (hklen : klen = w.toNat / 2 ^ 24 % 16) (hblen : blen = w.toNat / 2 ^ 20 % 16)
    (hkey : key.toNat = w.toNat / 2 ^ 8 % 1024) (hblk : blk.toNat = w.toNat % 256) (s : State) :
    seqExec w.toNat = registerNats (blockCommand hardwareTables cipher klen blen key blk s) := by
  simp only [seqExec, hz1, hz2, hop, ← hklen, ← hblen, ← hkey, ← hblk, seqOfNat_toNat, seqKeySchedule_elements,
    seqToNat_elements, ← elements_twoRounds, ← encrypt_eq, ← decrypt_eq]
  obtain ⟨hproper, hk', hb', hboth⟩ := blockCommand_effect hardwareTables cipher key blk s klen blen
  have hop4 : op % 4 = op ∧ op ≠ 0 ∧ op ≠ 1 := by
    rcases hcipher with ⟨rfl, -⟩ | ⟨rfl, -⟩ <;> decide
  obtain ⟨hmod, hop0, hop1⟩ := hop4
  by_cases hk : klen = 10 <;> by_cases hb : blen = 8
  · rw [hproper ⟨hk, hb⟩]
    rcases hcipher with ⟨rfl, rfl⟩ | ⟨rfl, rfl⟩ <;> simp [hk, hb, registerNats]
  · rw [hb' ⟨hk, hb⟩]
    simp [hk, hb, hmod, hop0, hop1, registerNats]
  · rw [hk' ⟨hk, hb⟩]
    simp [hk, hb, hmod, hop0, hop1, registerNats]
  · rw [hboth ⟨hk, hb⟩]
    simp [hk, hb, hmod, hop0, hop1, registerNats]

/-- A legal word leaves in the registers what the evaluator computes. -/
theorem seqExec_of_decode {w : Word} {i : Instr} (h : decode w = .ok i) (s : State) :
    ∃ t, exec i s = .next t ∧ registerNats t = seqExec w.toNat := by
  cases i with
  | derive klen key => exact ⟨_, rfl, (seqExec_derive h s).symm⟩
  | enc klen blen key blk =>
    obtain ⟨hz1, hz2, hop, hklen, hblen, hkey, hblk⟩ := decoderReadsEachField w _ h
    exact ⟨_, rfl, (seqExec_block (.inl ⟨rfl, rfl⟩) hop hz1 hz2 hklen hblen hkey hblk s).symm⟩
  | dec klen blen key blk =>
    obtain ⟨hz1, hz2, hop, hklen, hblen, hkey, hblk⟩ := decoderReadsEachField w _ h
    exact ⟨_, rfl, (seqExec_block (.inr ⟨rfl, rfl⟩) hop hz1 hz2 hklen hblen hkey hblk s).symm⟩

/-- Settles O48: an illegal word gives both the same fault, and a legal one the commands that agree function by function. -/
theorem machineMatchesReference : Obligations.MachineMatchesReference := by
  intro s w es hp
  by_cases hw : IllegalWord w
  · exact ⟨_, step_of_illegalWord hp hw, rfl, (seqExec_of_illegalWord hw).symm⟩
  · obtain ⟨i, hd⟩ := decode_of_not_illegalWord hw
    obtain ⟨t, ht, hregs⟩ := seqExec_of_decode hd { s with pending := es }
    exact ⟨t, (step_of_decode hp hd).trans ht, commandFrame _ _ _ ht, hregs⟩

end Sys2Proof.Machine
end

section
/-! The output word, the time of a command and the work that it takes (20_memory.md section 1; 70_reset_and_hazards.md
R109). -/

namespace Sys2Proof.Machine

/-! ### The output word -/

theorem toNat_append_eq {m n : Nat} (x : BitVec m) (y : BitVec n) : (x ++ y).toNat = 2 ^ n * x.toNat + y.toNat := by
  rw [BitVec.toNat_append, ← Nat.shiftLeft_add_eq_or_of_lt y.isLt, Nat.shiftLeft_eq, Nat.mul_comm]

/-- Settles O49: each register counts from the place where the registers to its right end. -/
theorem outputWordPlaces : Obligations.OutputWordPlaces := by
  intro s
  rw [State.outputWord, toNat_append_eq, toNat_append_eq, toNat_append_eq]
  omega

/-! ### Time -/

/-- The time of an illegal word is one latency for all of them (assumption log 8). -/
theorem commandTime_of_illegalWord {w : Word} (h : IllegalWord w) :
    commandTime w = Config.latencyLessOne .illegal true + 1 := by
  obtain ⟨why, hd⟩ := decode_of_illegalWord h
  rw [commandTime, commandKind, commandFaults, hd]

/-- The time of a legal word is the latency of its operation and of its fault. -/
theorem commandTime_of_decode {w : Word} {i : Instr} (h : decode w = .ok i) :
    commandTime w = Config.latencyLessOne (instrKind i) (instrFaults i) + 1 := by
  rw [commandTime, commandKind, commandFaults, h]

/-- A command faults exactly when a length check raises an error. -/
theorem instrFaults_eq (i : Instr) : instrFaults i = (lengthErrs i != 0) := by
  cases i <;> rfl

/-- The operation of a legal word stands in OP. -/
theorem instrKind_eq_of_opField_eq {i j : Instr} (h : opField (encode i) = opField (encode j)) :
    instrKind i = instrKind j := by
  cases i <;> cases j <;> simp [encode, instrKind] at h ⊢

/-- The errors of a legal word stand in OP and the length fields. -/
theorem lengthErrs_eq_of_fields_eq {w w' : Word} {i j : Instr} (hi : decode w = .ok i) (hj : decode w' = .ok j)
    (hop : opField w = opField w') (hklen : klenField w = klenField w') (hblen : blenField w = blenField w') :
    lengthErrs i = lengthErrs j := by
  obtain ⟨hi0, hi1⟩ := getLsbD_lengthErrs_of_decode hi
  obtain ⟨hj0, hj1⟩ := getLsbD_lengthErrs_of_decode hj
  refine BitVec.eq_of_getLsbD_eq fun b _ => ?_
  match b with
  | 0 => rw [Bool.eq_iff_iff, hi0, hj0, hklen]
  | 1 => rw [Bool.eq_iff_iff, hi1, hj1, hop, hblen]
  | b + 2 => rw [getLsbD_lengthErrs_of_ge i (by omega), getLsbD_lengthErrs_of_ge j (by omega)]

/-- A field of bits 31:18 is the same in two words that agree there. -/
theorem extractLsb'_eq_of_upper_eq {w w' : Word} (h : w.extractLsb' 18 14 = w'.extractLsb' 18 14) {start len : Nat}
    (hlow : 18 ≤ start) (hhigh : start + len ≤ 32) : w.extractLsb' start len = w'.extractLsb' start len := by
  refine BitVec.eq_of_getLsbD_eq fun b hb => ?_
  have hbit := congrArg (·.getLsbD (start - 18 + b)) h
  simp only [BitVec.getLsbD_extractLsb'] at hbit ⊢
  rw [decide_eq_true (by omega), Bool.true_and, Bool.true_and, show 18 + (start - 18 + b) = start + b by omega] at hbit
  rw [hbit]

/-- Words that agree in bits 31:18 and in being legal take the same time. -/
theorem commandTime_eq_of_upper_eq {w w' : Word} (h : w.extractLsb' 18 14 = w'.extractLsb' 18 14)
    (hlegal : IllegalWord w ↔ IllegalWord w') : commandTime w = commandTime w' := by
  by_cases hw : IllegalWord w
  · rw [commandTime_of_illegalWord hw, commandTime_of_illegalWord (hlegal.mp hw)]
  · obtain ⟨i, hi⟩ := decode_of_not_illegalWord hw
    obtain ⟨j, hj⟩ := decode_of_not_illegalWord (mt hlegal.mpr hw)
    have hop : opField w = opField w' := extractLsb'_eq_of_upper_eq h (by decide) (by decide)
    have hklen : klenField w = klenField w' := extractLsb'_eq_of_upper_eq h (by decide) (by decide)
    have hblen : blenField w = blenField w' := extractLsb'_eq_of_upper_eq h (by decide) (by decide)
    have hkind : instrKind i = instrKind j :=
      instrKind_eq_of_opField_eq (by rwa [encode_of_decode hi, encode_of_decode hj])
    rw [commandTime_of_decode hi, commandTime_of_decode hj, hkind, instrFaults_eq, instrFaults_eq,
      lengthErrs_eq_of_fields_eq hi hj hop hklen hblen]

/-- Bits 31:18 of a packed word do not hold the key or the block. -/
theorem extractLsb'_packWord_upper (op : BitVec 2) (klen blen : Nat) (key key' : MasterKey) (blk blk' : Block) :
    (packWord op klen blen key blk).extractLsb' 18 14 = (packWord op klen blen key' blk').extractLsb' 18 14 := by
  refine BitVec.eq_of_getLsbD_eq fun b _ => ?_
  have hblk : ¬ 18 + b < 8 := by omega
  have hkey : ¬ 18 + b - 8 < 10 := by omega
  simp only [packWord, BitVec.getLsbD_extractLsb', BitVec.getLsbD_append, hblk, hkey, if_false]

/-- Two instructions whose words agree in bits 31:18 take the same time. -/
theorem commandTime_encode_eq {i j : Instr} (h : (encode i).extractLsb' 18 14 = (encode j).extractLsb' 18 14) :
    commandTime (encode i) = commandTime (encode j) :=
  commandTime_eq_of_upper_eq h (iff_of_false (not_illegalWord_encode i) (not_illegalWord_encode j))

/-- Settles O50: the time is read off bits 31:18 and legality, and the words of two instructions that differ in key or block
agree in both. -/
theorem timeDoesNotDependOnData : Obligations.TimeDoesNotDependOnData :=
  ⟨fun _ => Nat.succ_pos _,
    fun klen blen key key' blk blk' =>
      ⟨commandTime_encode_eq (extractLsb'_packWord_upper 1 klen 0 key key' 0 0),
        commandTime_encode_eq (extractLsb'_packWord_upper 2 klen blen key key' blk blk'),
        commandTime_encode_eq (extractLsb'_packWord_upper 3 klen blen key key' blk blk')⟩,
    fun _ _ => commandTime_eq_of_upper_eq⟩

/-! ### Work -/

section
variable (t : Tables)

/-- The counted key schedule is the key schedule. -/
theorem keyScheduleCounted_eq (k : MasterKey) :
    keyScheduleCounted t k = { val := keySchedule t k, work := { permutes := 3, rotls := 4 } } := rfl

/-- The counted round is the round. -/
theorem roundCounted_eq (b : Block) (sk : Subkey) :
    roundCounted t b sk =
      { val := feistelRound t b sk, work := { permutes := 2, sboxes := 2, xors8 := 1, xors4 := 1 } } := rfl

/-- The counted driver is the driver. -/
theorem twoRoundsCounted_eq (first second : Subkey) (x : Block) :
    twoRoundsCounted t first second x =
      { val := twoRounds t first second x
        work := { permutes := 6, sboxes := 4, xors8 := 2, xors4 := 2, swaps := 1 } } := by
  simp only [twoRoundsCounted, roundCounted_eq]
  rfl

theorem commandCounted_of_faults {i : Instr} (h : instrFaults i = true) : commandCounted t i = Tally.free (0, 0, 0) :=
  if_pos h

theorem commandCounted_derive (key : MasterKey) :
    commandCounted t (.derive 10 key) =
      { val := ((keySchedule t key).1, (keySchedule t key).2, 0), work := { permutes := 3, rotls := 4 } } := rfl

theorem commandCounted_enc (key : MasterKey) (blk : Block) :
    commandCounted t (.enc 10 8 key blk) =
      { val := ((keySchedule t key).1, (keySchedule t key).2, encrypt t blk key)
        work := { permutes := 9, rotls := 4, sboxes := 4, xors8 := 2, xors4 := 2, swaps := 1 } } := by
  simp only [commandCounted, keyScheduleCounted_eq, twoRoundsCounted_eq]
  rfl

theorem commandCounted_dec (key : MasterKey) (blk : Block) :
    commandCounted t (.dec 10 8 key blk) =
      { val := ((keySchedule t key).1, (keySchedule t key).2, decrypt t blk key)
        work := { permutes := 9, rotls := 4, sboxes := 4, xors8 := 2, xors4 := 2, swaps := 1 } } := by
  simp only [commandCounted, keyScheduleCounted_eq, twoRoundsCounted_eq]
  rfl

end

/-- DERIVE faults on a wrong key length. -/
theorem instrFaults_derive_of_ne {klen : Nat} (h : klen ≠ 10) (key : MasterKey) :
    instrFaults (.derive klen key) = true :=
  bne_iff_ne.mpr (mt (keyLenErr_eq_zero klen).mp h)

/-- ENC and DEC fault when one of their lengths is wrong. -/
theorem instrFaults_block_of_ne {klen blen : Nat} (h : ¬ (klen = 10 ∧ blen = 8)) (key : MasterKey) (blk : Block) :
    instrFaults (.enc klen blen key blk) = true ∧ instrFaults (.dec klen blen key blk) = true := by
  simp only [instrFaults, bne_iff_ne, ne_eq, lengthErr_eq_zero, h, not_false_eq_true, and_self]

/-- The counted computation gives the registers that the command leaves. -/
theorem commandCounted_val (i : Instr) (s : State) :
    ∃ t, exec i s = .next t ∧ (commandCounted hardwareTables i).val = (t.k1, t.k2, t.r) := by
  cases i with
  | derive klen key =>
    by_cases hk : klen = 10
    · rw [hk, commandCounted_derive]
      exact ⟨_, exec_derive_ten key s, rfl⟩
    · rw [commandCounted_of_faults hardwareTables (instrFaults_derive_of_ne hk key)]
      exact ⟨_, exec_derive_of_ne hk key s, rfl⟩
  | enc klen blen key blk =>
    refine ⟨_, exec_enc klen blen key blk s, ?_⟩
    by_cases h : klen = 10 ∧ blen = 8
    · obtain ⟨rfl, rfl⟩ := h
      rw [commandCounted_enc, blockCommand_proper]
    · rw [commandCounted_of_faults _ (instrFaults_block_of_ne h key blk).1, blockCommand_of_ne _ _ (by omega),
        raiseFault_eq]
      rfl
  | dec klen blen key blk =>
    refine ⟨_, exec_dec klen blen key blk s, ?_⟩
    by_cases h : klen = 10 ∧ blen = 8
    · obtain ⟨rfl, rfl⟩ := h
      rw [commandCounted_dec, blockCommand_proper]
    · rw [commandCounted_of_faults _ (instrFaults_block_of_ne h key blk).2, blockCommand_of_ne _ _ (by omega),
        raiseFault_eq]
      rfl

/-- Settles O51: each counted function is the function and a constant count. -/
theorem workCountsAreFixed : Obligations.WorkCountsAreFixed := by
  refine ⟨fun t i h => ?_, fun t key => ?_, fun t key blk => ⟨?_, ?_⟩, fun i s t h => ?_⟩
  · rw [commandCounted_of_faults t h, Tally.free]
  · rw [commandCounted_derive]
  · rw [commandCounted_enc]
  · rw [commandCounted_dec]
  · obtain ⟨t', ht', hval⟩ := commandCounted_val i s
    obtain rfl := Host.Outcome.next.inj (ht'.symm.trans h)
    exact hval

end Sys2Proof.Machine
end

section
/-! Text: the assembler on operand strings, the disassembler's four forms, and the printed line read back (30_encoding.md
R37; assumption log 12). -/

namespace Sys2Proof.Machine

/-! ### The assembler on operand strings -/

/-- The word of a DEC line (30_encoding.md R37). -/
theorem assemble_dec_map (block key : List Bool) :
    assemble (.dec (block.map fun b => if b then '1' else '0') (key.map fun b => if b then '1' else '0')) =
      .ok (encode (.dec (declaredLength key) (declaredLength block) (dataField 10 key) (dataField 8 block))) := by
  rw [assemble, bitsOfText_map, bitsOfText_map, Except.bind, Except.map]

/-- Settles O52: the word is that of an instruction whose lengths the assembler keeps in range. -/
theorem assemblerFieldsOfStrings : Obligations.AssemblerFieldsOfStrings := by
  rintro key block _ _ rfl rfl
  exact ⟨_, _, _, assemble_derive_map key, assemble_enc_map block key, assemble_dec_map block key,
    decode_encode (by simp [Instr.wellFormed]), decode_encode (by simp [Instr.wellFormed]),
    decode_encode (by simp [Instr.wellFormed])⟩

/-! ### The disassembler -/

theorem disassemble_of_decode_derive {w : Word} {key : MasterKey} (h : decode w = .ok (.derive 10 key)) :
    disassemble w = .derive (textOfBits key) := by
  simp [disassemble, h]

theorem disassemble_of_decode_enc {w : Word} {key : MasterKey} {blk : Block} (h : decode w = .ok (.enc 10 8 key blk)) :
    disassemble w = .enc (textOfBits blk) (textOfBits key) := by
  simp [disassemble, h]

theorem disassemble_of_decode_dec {w : Word} {key : MasterKey} {blk : Block} (h : decode w = .ok (.dec 10 8 key blk)) :
    disassemble w = .dec (textOfBits blk) (textOfBits key) := by
  simp [disassemble, h]

/-- A word is a legal one with proper lengths, or it is given as .word (30_encoding.md R37). -/
theorem disassemble_cases (w : Word) :
    (∃ key, decode w = .ok (.derive 10 key)) ∨ (∃ key blk, decode w = .ok (.enc 10 8 key blk)) ∨
      (∃ key blk, decode w = .ok (.dec 10 8 key blk)) ∨ disassemble w = .word w := by
  rw [disassemble]
  cases decode w with
  | error why => exact .inr (.inr (.inr rfl))
  | ok i =>
    cases i with
    | derive klen key =>
      by_cases h : klen = 10
      · subst h
        exact .inl ⟨key, rfl⟩
      · exact .inr (.inr (.inr (if_neg h)))
    | enc klen blen key blk =>
      by_cases h : klen = 10 ∧ blen = 8
      · obtain ⟨rfl, rfl⟩ := h
        exact .inr (.inl ⟨key, blk, rfl⟩)
      · exact .inr (.inr (.inr (if_neg h)))
    | dec klen blen key blk =>
      by_cases h : klen = 10 ∧ blen = 8
      · obtain ⟨rfl, rfl⟩ := h
        exact .inr (.inr (.inl ⟨key, blk, rfl⟩))
      · exact .inr (.inr (.inr (if_neg h)))

theorem dataField_elements {n : Nat} (v : BitVec n) : dataField n (elements v) = v := by
  rw [dataField, if_pos (elements_length v), ofSequence_elements]

theorem declaredLength_elements {n : Nat} (h : n ≤ 15) (v : BitVec n) : declaredLength (elements v) = n := by
  rw [declaredLength, elements_length, min_eq_left h]

/-- What the disassembler gives assembles to the word. -/
theorem assemble_disassemble (w : Word) : assemble (disassemble w) = .ok w := by
  rcases disassemble_cases w with ⟨key, h⟩ | ⟨key, blk, h⟩ | ⟨key, blk, h⟩ | h
  · rw [disassemble_of_decode_derive h, textOfBits, assemble_derive_map, declaredLength_elements (by decide),
      dataField_elements, encode_of_decode h]
  · rw [disassemble_of_decode_enc h, textOfBits, textOfBits, assemble_enc_map, declaredLength_elements (by decide),
      declaredLength_elements (by decide), dataField_elements, dataField_elements, encode_of_decode h]
  · rw [disassemble_of_decode_dec h, textOfBits, textOfBits, assemble_dec_map, declaredLength_elements (by decide),
      declaredLength_elements (by decide), dataField_elements, dataField_elements, encode_of_decode h]
  · rw [h, assemble]

/-- The text of a vector lists its elements in order (20_memory.md R23). -/
theorem textOfBits_eq {n : Nat} (v : BitVec n) :
    textOfBits v = (List.range n).map fun i => if el v i then '1' else '0' :=
  List.ext_getElem (by simp [textOfBits]) fun i _ _ => by simp [textOfBits]

/-- Settles O54: the mnemonic forms are those of the three cases with proper lengths, and every form gives the word back. -/
theorem assembleDisassembleAgree : Obligations.AssembleDisassembleAgree := by
  refine ⟨assemble_disassemble, fun w key h => ?_, fun w key blk => ⟨fun h => ?_, fun h => ?_⟩, fun w h => ?_⟩
  · rw [disassemble_of_decode_derive h, textOfBits_eq]
  · rw [disassemble_of_decode_enc h, textOfBits_eq, textOfBits_eq]
  · rw [disassemble_of_decode_dec h, textOfBits_eq, textOfBits_eq]
  · rcases disassemble_cases w with ⟨key, hd⟩ | ⟨key, blk, hd⟩ | ⟨key, blk, hd⟩ | hword
    · exact absurd hd (h key 0).1
    · exact absurd hd (h key blk).2.1
    · exact absurd hd (h key blk).2.2
    · exact hword

/-! ### Blanks -/

/-- No blank stands at either end. -/
def Trimmed (cs : List Char) : Prop :=
  (∀ c ∈ cs.head?, isBlank c = false) ∧ ∀ c ∈ cs.getLast?, isBlank c = false

theorem dropWhile_isBlank_eq_self {cs : List Char} (h : ∀ c ∈ cs.head?, isBlank c = false) :
    cs.dropWhile isBlank = cs := by
  cases cs with
  | nil => rfl
  | cons c cs => rw [List.dropWhile_cons_of_neg (by simp [h c rfl])]

theorem Trimmed.trim_eq {cs : List Char} (h : Trimmed cs) : trim cs = cs := by
  obtain ⟨hhead, hlast⟩ := h
  rw [trim, dropWhile_isBlank_eq_self hhead, dropWhile_isBlank_eq_self (by rwa [List.head?_reverse]),
    List.reverse_reverse]

theorem trim_space_cons (cs : List Char) : trim (' ' :: cs) = trim cs := rfl

theorem trimmed_of_forall {cs : List Char} (h : ∀ c ∈ cs, isBlank c = false) : Trimmed cs :=
  ⟨fun c hc => h c (List.mem_of_head? hc), fun c hc => h c (List.mem_of_getLast? hc)⟩

/-- What stands between two parts does not matter for the ends. -/
theorem Trimmed.append {a b : List Char} (ha : Trimmed a) (hb : Trimmed b) (hane : a ≠ []) (hbne : b ≠ [])
    (middle : List Char) : Trimmed (a ++ middle ++ b) := by
  constructor
  · rw [List.append_assoc, List.head?_append_of_ne_nil _ hane]
    exact ha.1
  · rw [List.getLast?_append_of_ne_nil _ hbne]
    exact hb.2

/-! ### The parts of a line -/

/-- A mnemonic: characters without a blank, and at least one. -/
def IsMnemonic (cs : List Char) : Prop := cs ≠ [] ∧ ∀ c ∈ cs, isBlank c = false

section
variable {mnemonic operands : List Char} (hm : IsMnemonic mnemonic)
include hm

theorem trim_line (hne : operands ≠ []) (ho : Trimmed operands) :
    trim (mnemonic ++ ' ' :: operands) = mnemonic ++ ' ' :: operands := by
  obtain ⟨hmne, hm⟩ := hm
  have h := ((trimmed_of_forall hm).append ho hmne hne [' ']).trim_eq
  rwa [List.append_assoc] at h

theorem takeWhile_line : ((mnemonic ++ ' ' :: operands).takeWhile fun c => !isBlank c) = mnemonic := by
  rw [List.takeWhile_append_of_pos (by simpa using hm.2), List.takeWhile_cons_of_neg (by decide), List.append_nil]

theorem dropWhile_line : ((mnemonic ++ ' ' :: operands).dropWhile fun c => !isBlank c) = ' ' :: operands := by
  rw [List.dropWhile_append_of_pos (by simpa using hm.2), List.dropWhile_cons_of_neg (by decide)]

end

/-- A DERIVE line is read by its operand. -/
theorem parseLine_derive {key : List Char} (hne : key ≠ []) (hkey : Trimmed key) :
    parseLine (['D', 'E', 'R', 'I', 'V', 'E'] ++ ' ' :: key) = .ok (.derive key) := by
  have hm : IsMnemonic ['D', 'E', 'R', 'I', 'V', 'E'] := by simp [IsMnemonic, isBlank]
  simp only [parseLine, trim_line hm hne hkey, takeWhile_line hm, dropWhile_line hm, trim_space_cons, hkey.trim_eq]
  rfl

/-- A .word line is read by its number. -/
theorem parseLine_word {number : List Char} (hne : number ≠ []) (hnumber : Trimmed number) {w : Word}
    (h : parseHex number = some w) : parseLine (['.', 'w', 'o', 'r', 'd'] ++ ' ' :: number) = .ok (.word w) := by
  have hm : IsMnemonic ['.', 'w', 'o', 'r', 'd'] := by simp [IsMnemonic, isBlank]
  simp only [parseLine, trim_line hm hne hnumber, takeWhile_line hm, dropWhile_line hm, trim_space_cons,
    hnumber.trim_eq, h]
  rfl

/-- Text without a comma is what stands before the first comma after it. -/
theorem splitComma_append {cs : List Char} (h : ∀ c ∈ cs, c ≠ ',') (rest : List Char) :
    splitComma (cs ++ ',' :: rest) = some (cs, rest) := by
  induction cs with
  | nil => rfl
  | cons c cs ih =>
    obtain ⟨hc, hcs⟩ := List.forall_mem_cons.mp h
    rw [List.cons_append, splitComma, if_neg hc, ih hcs, Option.map_some]

/-- Printed operands are split where their comma was printed. -/
theorem splitComma_operands {block : List Char} (h : ∀ c ∈ block, c ≠ ',') (key : List Char) :
    splitComma (block ++ [',', ' '] ++ key) = some (block, ' ' :: key) := by
  rw [List.append_assoc]
  exact splitComma_append h (' ' :: key)

section
variable {block key : List Char} (hbne : block ≠ []) (hblock : Trimmed block) (hcomma : ∀ c ∈ block, c ≠ ',')
  (hkne : key ≠ []) (hkey : Trimmed key)
include hbne hblock hcomma hkne hkey

/-- An ENC line is read by its two operands. -/
theorem parseLine_enc :
    parseLine (['E', 'N', 'C'] ++ ' ' :: (block ++ [',', ' '] ++ key)) = .ok (.enc block key) := by
  have hm : IsMnemonic ['E', 'N', 'C'] := by simp [IsMnemonic, isBlank]
  have hoperands := hblock.append hkey hbne hkne [',', ' ']
  simp only [parseLine, trim_line hm (by simp) hoperands, takeWhile_line hm, dropWhile_line hm, trim_space_cons,
    hoperands.trim_eq, splitComma_operands hcomma, hblock.trim_eq, hkey.trim_eq]
  rfl

/-- A DEC line is read by its two operands. -/
theorem parseLine_dec :
    parseLine (['D', 'E', 'C'] ++ ' ' :: (block ++ [',', ' '] ++ key)) = .ok (.dec block key) := by
  have hm : IsMnemonic ['D', 'E', 'C'] := by simp [IsMnemonic, isBlank]
  have hoperands := hblock.append hkey hbne hkne [',', ' ']
  simp only [parseLine, trim_line hm (by simp) hoperands, takeWhile_line hm, dropWhile_line hm, trim_space_cons,
    hoperands.trim_eq, splitComma_operands hcomma, hblock.trim_eq, hkey.trim_eq]
  rfl

end

/-! ### The printed operands -/

theorem textOfBits_ne_nil {n : Nat} (v : BitVec (n + 1)) : textOfBits v ≠ [] := by
  rw [← List.length_pos_iff]
  simp [textOfBits]

theorem mem_textOfBits {n : Nat} {v : BitVec n} {c : Char} (h : c ∈ textOfBits v) : c = '0' ∨ c = '1' := by
  obtain ⟨b, -, rfl⟩ := List.mem_map.mp h
  cases b
  · exact .inl rfl
  · exact .inr rfl

theorem trimmed_textOfBits {n : Nat} (v : BitVec n) : Trimmed (textOfBits v) :=
  trimmed_of_forall fun c h => by
    obtain rfl | rfl := mem_textOfBits h
    · rfl
    · rfl

theorem ne_comma_of_mem_textOfBits {n : Nat} (v : BitVec n) : ∀ c ∈ textOfBits v, c ≠ ',' := fun c h => by
  obtain rfl | rfl := mem_textOfBits h
  · decide
  · decide

/-- A printed digit is read as its value. -/
@[simp] theorem hexValue_hexDigit (v : BitVec 4) : hexValue (hexDigit v) = some v := by
  revert v; decide

theorem isBlank_hexDigit (v : BitVec 4) : isBlank (hexDigit v) = false := by
  revert v; decide

/-- A word is its eight digits side by side. -/
theorem word_eq_digits (w : Word) :
    w.extractLsb' 28 4 ++ w.extractLsb' 24 4 ++ w.extractLsb' 20 4 ++ w.extractLsb' 16 4 ++ w.extractLsb' 12 4 ++
      w.extractLsb' 8 4 ++ w.extractLsb' 4 4 ++ w.extractLsb' 0 4 = w := by
  apply BitVec.eq_of_getLsbD_eq
  intro i h
  simp only [BitVec.getLsbD_append, BitVec.getLsbD_extractLsb']
  interval_cases i <;> simp

theorem parseHex_printHex (w : Word) : parseHex (printHex w) = some w := by
  simp only [printHex, parseHex, hexValue_hexDigit, word_eq_digits]

theorem trimmed_printHex (w : Word) : Trimmed (printHex w) :=
  ⟨fun c h => by obtain rfl := Option.mem_some.mp h; rfl,
    fun c h => by obtain rfl := Option.mem_some.mp h; exact isBlank_hexDigit _⟩

/-- Settles O55: each of the four forms is printed with operands that have no blank and, before the comma, no comma. -/
theorem printedLineReadsBack : Obligations.PrintedLineReadsBack := by
  intro w
  rcases disassemble_cases w with ⟨key, h⟩ | ⟨key, blk, h⟩ | ⟨key, blk, h⟩ | h
  · rw [disassemble_of_decode_derive h]
    exact parseLine_derive (textOfBits_ne_nil key) (trimmed_textOfBits key)
  · rw [disassemble_of_decode_enc h, printLine]
    exact parseLine_enc (textOfBits_ne_nil blk) (trimmed_textOfBits blk) (ne_comma_of_mem_textOfBits blk)
      (textOfBits_ne_nil key) (trimmed_textOfBits key)
  · rw [disassemble_of_decode_dec h, printLine]
    exact parseLine_dec (textOfBits_ne_nil blk) (trimmed_textOfBits blk) (ne_comma_of_mem_textOfBits blk)
      (textOfBits_ne_nil key) (trimmed_textOfBits key)
  · rw [h]
    exact parseLine_word (List.cons_ne_nil _ _) (trimmed_printHex w) (parseHex_printHex w)

end Sys2Proof.Machine
end
